-- ==== Sys2Proof/Word.lean ====
section
/-! DEFINITION. Sys2Proof/Word.lean: the byte and the three readings of it that the spec's notation uses
(00_scope.md R10, R12, R13). -/

namespace Sys2Proof

/-- A byte: 8 bits, bit 7 the most significant (00_scope.md R12). Accumulator, program counter, memory cell, firmware
byte and operand all have this width (00_scope.md R10). -/
abbrev Byte := BitVec 8

/-- `uint(b)`: the byte read unsigned, 0 to 255 (00_scope.md R12). -/
abbrev uint (b : Byte) : Nat := b.toNat

/-- `sint(b)`: the byte read in two's complement, -128 to 127 (00_scope.md R12). -/
abbrev sint (b : Byte) : Int := b.toInt

/-- `wrap8(n)`: the byte `b` with `uint(b) = n mod 256` (00_scope.md R13). -/
abbrev wrap8 (n : Int) : Byte := BitVec.ofInt 8 n

end Sys2Proof
end

