-- ==== Sys2Proof/Config.lean ====
section
/-! DEFINITION. Sys2Proof/Config.lean: the four parameters a model of the CORE takes (00_scope.md R9). Their legal ranges
are in WellFormed.lean, their defaults in Decode.lean (the opcode map) and Machine/Parameters.lean. -/

namespace Sys2Proof

/-- `OPCODE_MAP`: the opcode byte of each of the twelve mnemonics (00_scope.md R9, 30_encoding.md R63). -/
structure OpcodeMap where
  and : Byte
  or : Byte
  xor : Byte
  not : Byte
  lda : Byte
  sta : Byte
  hlt : Byte
  tst : Byte
  jpz : Byte
  jmp : Byte
  add : Byte
  out : Byte
  deriving DecidableEq, Repr

/-- The implementation parameters, fixed for an engine's lifetime (00_scope.md R9, 10_state.md R33). -/
structure Params where
  /-- `MEM_SIZE`: the number of data-memory cells. -/
  memSize : Nat
  /-- `FW_SIZE`: the number of firmware bytes. -/
  fwSize : Nat
  /-- `ACC_INIT`: the accumulator's value at construction, read by construction only. -/
  accInit : Byte
  /-- `OPCODE_MAP`. -/
  opcodeMap : OpcodeMap
  deriving DecidableEq, Repr

end Sys2Proof
end

