-- ==== Sys2Proof/Syntax.lean ====
section
/-! DEFINITION. Sys2Proof/Syntax.lean: the twelve instructions of spec/opcode_table.json, in the table's order, each with
its operand byte. The operand is kept where it is unused too (30_encoding.md R61): it is part of the words. -/

namespace Sys2Proof

/-- The twelve mnemonics of the canonical instruction set (00_scope.md R3, 30_encoding.md R63). `CMP` is a second name of
`tst` (30_encoding.md R65). -/
inductive Mnemonic where
  | and | or | xor | not | lda | sta | hlt | tst | jpz | jmp | add | out
  deriving DecidableEq, Repr

/-- All twelve, in the table's order. -/
def Mnemonic.all : List Mnemonic := [.and, .or, .xor, .not, .lda, .sta, .hlt, .tst, .jpz, .jmp, .add, .out]

/-- An instruction: one constructor for each row of the opcode table. -/
inductive Instr where
  /-- AND, operand a data address (41_logic.md R100). -/
  | and (a : Byte)
  /-- OR, operand a data address (41_logic.md R101). -/
  | or (a : Byte)
  /-- XOR, operand a data address (41_logic.md R102). -/
  | xor (a : Byte)
  /-- NOT, operand unused (41_logic.md R103). -/
  | not (a : Byte)
  /-- LDA, operand a data address (42_load_store.md R120). -/
  | lda (a : Byte)
  /-- STA, operand a data address (42_load_store.md R121). -/
  | sta (a : Byte)
  /-- HLT, operand unused (43_control.md R140). -/
  | hlt (a : Byte)
  /-- TST (CMP), operand a data address (44_arith_compare.md R160). -/
  | tst (a : Byte)
  /-- JPZ, operand a firmware offset (43_control.md R143). -/
  | jpz (a : Byte)
  /-- JMP, operand a firmware offset (43_control.md R146). -/
  | jmp (a : Byte)
  /-- ADD, operand a data address (44_arith_compare.md R162). -/
  | add (a : Byte)
  /-- OUT, operand unused (45_output.md R180). -/
  | out (a : Byte)
  deriving DecidableEq, Repr

/-- The instruction's mnemonic. -/
def Instr.mnemonic : Instr → Mnemonic
  | .and _ => .and
  | .or _ => .or
  | .xor _ => .xor
  | .not _ => .not
  | .lda _ => .lda
  | .sta _ => .sta
  | .hlt _ => .hlt
  | .tst _ => .tst
  | .jpz _ => .jpz
  | .jmp _ => .jmp
  | .add _ => .add
  | .out _ => .out

/-- The instruction's operand byte, used or not. -/
def Instr.operand : Instr → Byte
  | .and a | .or a | .xor a | .not a | .lda a | .sta a | .hlt a | .tst a | .jpz a | .jmp a | .add a | .out a => a

end Sys2Proof
end

