-- ==== Sys2Proof/Decode.lean ====
section
/-! DEFINITION. Sys2Proof/Decode.lean: the default opcode map, the decoder and the encoder (30_encoding.md), and the
host's reading of one row of the opcode table. -/

namespace Sys2Proof

/-- The default `OPCODE_MAP`: 0x01 to 0x0C in the table's order (30_encoding.md R63; the spec's decision D1). -/
def OpcodeMap.default : OpcodeMap where
  and := 0x01
  or := 0x02
  xor := 0x03
  not := 0x04
  lda := 0x05
  sta := 0x06
  hlt := 0x07
  tst := 0x08
  jpz := 0x09
  jmp := 0x0A
  add := 0x0B
  out := 0x0C

/-- `OPCODE_MAP(m)`: the opcode byte of a mnemonic. -/
def OpcodeMap.byte (map : OpcodeMap) : Mnemonic → Byte
  | .and => map.and
  | .or => map.or
  | .xor => map.xor
  | .not => map.not
  | .lda => map.lda
  | .sta => map.sta
  | .hlt => map.hlt
  | .tst => map.tst
  | .jpz => map.jpz
  | .jmp => map.jmp
  | .add => map.add
  | .out => map.out

/-- What an instruction pair decodes to. The decoder is total: a byte that is no recognised opcode is an undefined opcode,
a no-op and no error (30_encoding.md R66). -/
inductive Decoded where
  /-- One of the twelve instructions. -/
  | instr (i : Instr)
  /-- An undefined opcode, with its opcode byte and its ignored operand byte. -/
  | undefinedOpcode (op a : Byte)
  deriving DecidableEq, Repr

/-- Why a byte stream does not begin with an instruction pair. -/
inductive DecodeError where
  /-- Fewer than the two bytes every instruction has (30_encoding.md R60, R68). -/
  | truncated
  deriving DecidableEq, Repr

/-- The instruction `MNEMONIC a` (30_encoding.md R71). -/
def Mnemonic.instr (m : Mnemonic) (a : Byte) : Instr :=
  match m with
  | .and => .and a
  | .or => .or a
  | .xor => .xor a
  | .not => .not a
  | .lda => .lda a
  | .sta => .sta a
  | .hlt => .hlt a
  | .tst => .tst a
  | .jpz => .jpz a
  | .jmp => .jmp a
  | .add => .add a
  | .out => .out a

/-- The mnemonic an opcode byte selects: the whole byte is compared with the twelve values of the map
(30_encoding.md R62). -/
def decodeOpcode (map : OpcodeMap) (op : Byte) : Option Mnemonic :=
  Mnemonic.all.find? fun m => map.byte m = op

/-- Decoding one pair: the operand takes no part in the choice of the instruction (30_encoding.md R62,
40_step_cycle.md R84). -/
def decodePair (map : OpcodeMap) (op a : Byte) : Decoded :=
  match decodeOpcode map op with
  | some m => .instr (m.instr a)
  | none => .undefinedOpcode op a

/-- Decoding the first pair of a flat stream of pairs, with the rest of the stream (30_encoding.md R60). -/
def decode (map : OpcodeMap) : List Byte → Except DecodeError (Decoded × List Byte)
  | op :: a :: rest => .ok (decodePair map op a, rest)
  | _ => .error .truncated

/-- Encoding: the opcode byte, then the operand byte (30_encoding.md R60, R71). -/
def encode (map : OpcodeMap) : Instr → Byte × Byte
  | .and a => (map.and, a)
  | .or a => (map.or, a)
  | .xor a => (map.xor, a)
  | .not a => (map.not, a)
  | .lda a => (map.lda, a)
  | .sta a => (map.sta, a)
  | .hlt a => (map.hlt, a)
  | .tst a => (map.tst, a)
  | .jpz a => (map.jpz, a)
  | .jmp a => (map.jmp, a)
  | .add a => (map.add, a)
  | .out a => (map.out, a)

/-- The two bytes of a word of the opcode table, `word = fw[ia] ++ fw[ia + 1]`: the opcode byte is `word[15:8]` and the
operand byte `word[7:0]` (30_encoding.md R69; the spec's decision D18). Bits at or above `nbits` count as 0. -/
def tableWordBytes (nbits w : Nat) : Byte × Byte :=
  let word : BitVec 16 := BitVec.ofNat 16 (w % 2 ^ nbits)
  (word.extractLsb' 8 8, word.extractLsb' 0 8)

/-- The instruction the decoder reads, under the default map, from a word of the opcode table. -/
def decodeTableWord (nbits w : Nat) : Option Instr :=
  match decode OpcodeMap.default [(tableWordBytes nbits w).1, (tableWordBytes nbits w).2] with
  | .ok (.instr i, _) => some i
  | _ => none

end Sys2Proof
end

