-- ==== Sys2Proof/Machine/Parameters.lean ====
section
/-! DEFINITION. Sys2Proof/Machine/Parameters.lean: the spec's default values of the parameters (00_scope.md R9). -/

namespace Sys2Proof

/-- The default parameters: 16 cells, 256 firmware bytes, accumulator 0, the default opcode map (00_scope.md R9). -/
def Params.default : Params where
  memSize := 16
  fwSize := 256
  accInit := 0
  opcodeMap := OpcodeMap.default

end Sys2Proof
end

