-- ==== Sys2Proof/Machine/State.lean ====
section
/-! DEFINITION. Sys2Proof/Machine/State.lean: the CORE's whole state as plain data (10_state.md), the reasons the model's
step can stop, and the state after reset. -/

namespace Sys2Proof.Machine

/-- A byte store in canonical form: (address, byte) pairs, addresses strictly rising, no pair that holds what an unlisted
address reads as (Memory.wf in Machine/Memory.lean). -/
abbrev Memory := List Host.Cell

/-- One entry of the output event stream (10_state.md R34). -/
inductive Event where
  /-- `Out(v)`: an OUT reported the accumulator, -128 to 127. -/
  | out (v : Int)
  /-- `Halt(o)`: an HLT reported the halt offset, 0 to 255. -/
  | halt (o : Nat)
  deriving DecidableEq, Repr

/-- The machine's own `fault` status record (10_state.md R27, 60_exceptions.md R203). Not to be taken for `Fault`, the
reasons the model stops. -/
inductive FaultRecord where
  /-- Cause code 0: no fault. -/
  | none
  /-- Cause code 1: the addressing fault, with the instruction's address, opcode byte and operand byte. -/
  | addressFault (ia opcode operand : Byte)
  deriving DecidableEq, Repr

/-- Why a step of the model stops with a fault. Both name an access to a place the spec says does not exist
(20_memory.md R48). The bounds check and CheckAddr rule both out, so no step raises either. -/
inductive Fault where
  /-- Raised by fetchByte for an offset at or past FW_SIZE. Safe: the model stops; unreachable from step, whose bounds check
  comes first (40_step_cycle.md R81). -/
  | firmwareAbsent (offset : Byte)
  /-- Raised by memRead and memWrite for an index at or past MEM_SIZE. Safe: the model stops; unreachable from exec, whose
  CheckAddr comes first (60_exceptions.md R201). -/
  | dataAbsent (index : Byte)
  deriving DecidableEq, Repr

/-- Why the model refuses. Only construction refuses; no step does (40_step_cycle.md R91). -/
inductive Refusal where
  /-- An instruction without a meaning, by its mnemonic. Raised by nothing: every instruction has its meaning. Safe. -/
  | notModelled (mnemonic : String)
  /-- Raised by construct: MEM_SIZE is not 1 to 256 (00_scope.md R9, D3). Safe: nothing is claimed of such an engine. -/
  | memSizeIllegal (memSize : Nat)
  /-- Raised by construct: FW_SIZE is not 1 to 256 (00_scope.md R9, D3). Safe. -/
  | fwSizeIllegal (fwSize : Nat)
  /-- Raised by construct: OPCODE_MAP gives two mnemonics one byte (30_encoding.md R64); the refusal is the model's choice, log
  entry 15. Safe. -/
  | opcodeMapNotInjective
  /-- Raised by construct: the memory buffer has not MEM_SIZE bytes (70_reset_and_hazards.md R223, D10). Safe. -/
  | memImageLength (length : Nat)
  /-- Raised by construct: the firmware buffer has not FW_SIZE bytes (70_reset_and_hazards.md R223, D10). Safe. -/
  | fwImageLength (length : Nat)
  /-- Raised by constructFromImage: the program image has not MEM_SIZE + FW_SIZE bytes (70_reset_and_hazards.md R224). Safe. -/
  | programImageLength (length : Nat)
  deriving DecidableEq, Repr

/-- The CORE's state (10_state.md section 1), with the parameters it was constructed with. -/
structure State where
  /-- The parameters; construction sets them and nothing changes them (00_scope.md R9). -/
  params : Params
  /-- The accumulator (10_state.md R20). -/
  acc : Byte
  /-- The program counter, an offset into the firmware (10_state.md R23). -/
  pc : Byte
  /-- The halted flag, terminal once true (10_state.md R28). -/
  halted : Bool
  /-- The fault record (10_state.md R27). -/
  fault : FaultRecord
  /-- The data memory bank (10_state.md R32). -/
  mem : Memory
  /-- The firmware buffer, read-only while the engine runs (10_state.md R33). -/
  fw : Memory
  /-- The output event stream, oldest event first (10_state.md R34). -/
  events : List Event
  deriving DecidableEq, Repr

/-- The machine right after reset: an engine constructed with the default parameters (00_scope.md R9,
70_reset_and_hazards.md R220). The image it is constructed from is the zero image: DESIGN CHOICE, unsafe, log entry 3. -/
def State.reset : State where
  params := Params.default
  acc := Params.default.accInit
  pc := 0
  halted := false
  fault := .none
  mem := []
  fw := []
  events := []

end Sys2Proof.Machine
end

