-- ==== Sys2Proof/Machine/Memory.lean ====
section
/-! DEFINITION. Sys2Proof/Machine/Memory.lean: the byte store behind the data memory and the firmware: its canonical form,
reading, writing, and building it from an image and back (20_memory.md R43). -/

namespace Sys2Proof.Machine

/-- What an unlisted address reads as (log entry 4): every byte of both spaces has its image value
(70_reset_and_hazards.md R226), and an image byte 0x00 is kept by listing nothing. -/
def unlistedByte : Byte := 0x00

/-- The canonical form: addresses strictly rising, no pair that holds the unlisted byte. -/
abbrev Memory.wf (m : Memory) : Prop :=
  m.Pairwise (fun c d => c.1 < d.1) ∧ ∀ c ∈ m, c.2 ≠ unlistedByte

/-- Every listed address is below `n`: nothing is listed where the space has no byte (20_memory.md R48). -/
abbrev Memory.below (n : Nat) (m : Memory) : Prop := ∀ c ∈ m, c.1 < n

/-- The byte at an address. -/
def Memory.read : Memory → Nat → Byte
  | [], _ => unlistedByte
  | (b, v) :: m, a => if a = b then v else Memory.read m a

/-- A byte put in front, unless it is the unlisted byte. -/
def Memory.cons (a : Nat) (v : Byte) (m : Memory) : Memory :=
  if v = unlistedByte then m else (a, v) :: m

/-- Setting the byte at one address; every other address keeps its byte (20_memory.md R43). -/
def Memory.write : Memory → Nat → Byte → Memory
  | [], a, v => Memory.cons a v []
  | (b, w) :: m, a, v =>
    if a < b then Memory.cons a v ((b, w) :: m)
    else if a = b then Memory.cons a v m
    else (b, w) :: Memory.write m a v

/-- The store that holds an image from address `a` on. -/
def Memory.ofBytesFrom : Nat → List Byte → Memory
  | _, [] => []
  | a, v :: image => Memory.cons a v (Memory.ofBytesFrom (a + 1) image)

/-- The store that holds an image from address 0 on (70_reset_and_hazards.md R220). -/
def Memory.ofBytes (image : List Byte) : Memory := Memory.ofBytesFrom 0 image

/-- The first `n` bytes of a store. -/
def Memory.toBytes (m : Memory) (n : Nat) : List Byte := (List.range n).map m.read

end Sys2Proof.Machine
end

