-- ==== Sys2Proof/Machine/Ops.lean ====
section
/-! DEFINITION. Sys2Proof/Machine/Ops.lean: the named operations over the state (00_scope.md R14): the primitives of both
address spaces, the program counter's moves, the event stream, and taking the addressing fault. -/

namespace Sys2Proof.Machine

/-- `acc <- v` (00_scope.md R14). -/
def State.setAcc (s : State) (v : Byte) : State := { s with acc := v }

/-- `pc <- target` (00_scope.md R14, 43_control.md R142). -/
def State.setPc (s : State) (target : Byte) : State := { s with pc := target }

/-- `pc <- wrap8(uint(pc) + 1)` (40_step_cycle.md R82, R83). -/
def State.advancePc (s : State) : State := s.setPc (wrap8 (uint s.pc + 1))

/-- `halted <- true` (10_state.md R28). -/
def State.halt (s : State) : State := { s with halted := true }

/-- `Emit(e)`: append an event to the stream (10_state.md R34). -/
def State.emit (s : State) (e : Event) : State := { s with events := s.events ++ [e] }

/-- `FetchByte(a)`: the firmware byte at an offset below FW_SIZE (20_memory.md R43). -/
def fetchByte (s : State) (a : Byte) : Except Fault Byte :=
  if uint a < s.params.fwSize then .ok (s.fw.read (uint a)) else .error (.firmwareAbsent a)

/-- `MemRead(a, 1)`: the data cell at an index below MEM_SIZE (20_memory.md R43). -/
def memRead (s : State) (a : Byte) : Except Fault Byte :=
  if uint a < s.params.memSize then .ok (s.mem.read (uint a)) else .error (.dataAbsent a)

/-- `MemWrite(a, 1, v)`: set the data cell at an index below MEM_SIZE (20_memory.md R43). -/
def memWrite (s : State) (a v : Byte) : Except Fault State :=
  if uint a < s.params.memSize then .ok { s with mem := s.mem.write (uint a) v } else .error (.dataAbsent a)

/-- The address of the instruction that is executing: `pc` holds it plus 2 (10_state.md R24, 40_step_cycle.md R83).
DEDUCED, log entry 9. -/
def State.instrAddress (s : State) : Byte := wrap8 (uint s.pc - 2)

/-- The fault action `raise AddressFault({ia, opcode, operand})`: the record is written, the engine halts, and the
instruction has no other effect; `pc` keeps `ia + 2` (60_exceptions.md R202). Nothing returns from it: the halt is terminal
and no return-from-trap instruction exists (60_exceptions.md R205). -/
def State.raiseAddressFault (s : State) (ia opcode operand : Byte) : State :=
  { s with fault := .addressFault ia opcode operand }.halt

/-- The record's cause code (60_exceptions.md R203). -/
def FaultRecord.code : FaultRecord → Nat
  | .none => 0
  | .addressFault _ _ _ => 1

end Sys2Proof.Machine
end

