-- ==== Sys2Proof/Machine/Flags.lean ====
section
/-! DEFINITION. Sys2Proof/Machine/Flags.lean: the 8-bit ALU (44_arith_compare.md R164) and the tests that stand where other
machines have flags. The CORE has no condition codes and no flag but `halted` (10_state.md R30): no operation here
records a carry, an overflow, a zero or a sign. -/

namespace Sys2Proof.Machine

/-- `x & y`, bit by bit (00_scope.md R13). -/
def aluAnd (x y : Byte) : Byte := x &&& y

/-- `x | y`, bit by bit (00_scope.md R13). -/
def aluOr (x y : Byte) : Byte := x ||| y

/-- `x ^ y`, bit by bit (00_scope.md R13). -/
def aluXor (x y : Byte) : Byte := x ^^^ y

/-- `~x`: every bit inverted (00_scope.md R13). -/
def aluNot (x : Byte) : Byte := ~~~x

/-- `wrap8(sint(x) + sint(y))`: the exact signed sum, wrapped to 8 bits, with no trap (44_arith_compare.md R162). -/
def aluAdd (x y : Byte) : Byte := wrap8 (sint x + sint y)

/-- The compare's result: 0x00 if all 8 bits are equal, else the accumulator as it was; a conditional zeroing and no flag
(44_arith_compare.md R160). -/
def aluTst (acc cell : Byte) : Byte := if acc = cell then 0x00 else acc

/-- The test of JPZ: the accumulator itself is 0x00 (43_control.md R143, 10_state.md R30). -/
def accIsZero (s : State) : Bool := s.acc == 0x00

end Sys2Proof.Machine
end

