-- ==== Sys2Proof/Machine/Operands.lean ====
section
/-! DEFINITION. Sys2Proof/Machine/Operands.lean: the three uses an instruction makes of its operand byte
(30_encoding.md R61), and the range check of a data address (60_exceptions.md R201). -/

namespace Sys2Proof.Machine

/-- The use of the operand byte (30_encoding.md R61). -/
inductive OperandUse where
  /-- A data address, range-checked against MEM_SIZE at execution. -/
  | dataAddress
  /-- A firmware offset, the new `pc`, not range-checked. -/
  | firmwareOffset
  /-- Fetched, then ignored; not range-checked. -/
  | unused
  deriving DecidableEq, Repr

/-- The use each instruction makes of its operand (30_encoding.md R61). -/
def operandUse : Mnemonic → OperandUse
  | .and | .or | .xor | .lda | .sta | .tst | .add => .dataAddress
  | .jpz | .jmp => .firmwareOffset
  | .not | .hlt | .out => .unused

/-- The range check succeeds: `uint(a) < MEM_SIZE` (20_memory.md R42). -/
abbrev State.hasCell (s : State) (a : Byte) : Prop := uint a < s.params.memSize

/-- The addressing fault of the executing instruction: the record takes its address, its opcode byte and its operand byte
(60_exceptions.md R201, R202). -/
def State.addressFaultOf (s : State) (m : Mnemonic) (a : Byte) : State :=
  s.raiseAddressFault s.instrAddress (s.params.opcodeMap.byte m) a

/-- A memory instruction that reads its cell: CheckAddr(a) first, then the cell's byte goes to `f`
(60_exceptions.md R201). -/
def onCell (m : Mnemonic) (a : Byte) (s : State) (f : Byte → State) : Host.Outcome State Fault Refusal :=
  if s.hasCell a then
    match memRead s a with
    | .ok v => .next (f v)
    | .error e => .fault e
  else .next (s.addressFaultOf m a)

/-- A memory instruction that writes its cell: CheckAddr(a) first, then the cell takes `v` (60_exceptions.md R201). -/
def storeCell (m : Mnemonic) (a v : Byte) (s : State) : Host.Outcome State Fault Refusal :=
  if s.hasCell a then
    match memWrite s a v with
    | .ok t => .next t
    | .error e => .fault e
  else .next (s.addressFaultOf m a)

end Sys2Proof.Machine
end

