-- ==== Sys2Proof/Machine/ArithCompare.lean ====
section
/-! DEFINITION. Sys2Proof/Machine/ArithCompare.lean: TST (CMP) and ADD (44_arith_compare.md). Each meaning runs with
`pc = ia + 2`. -/

namespace Sys2Proof.Machine

/-- TST, also written CMP (44_arith_compare.md R160, 30_encoding.md R65). -/
def execTst (a : Byte) (s : State) : Host.Outcome State Fault Refusal :=
  onCell .tst a s fun v => s.setAcc (aluTst s.acc v)

/-- ADD (44_arith_compare.md R162). -/
def execAdd (a : Byte) (s : State) : Host.Outcome State Fault Refusal :=
  onCell .add a s fun v => s.setAcc (aluAdd s.acc v)

end Sys2Proof.Machine
end

