-- ==== Sys2Proof/Machine/Control.lean ====
section
/-! DEFINITION. Sys2Proof/Machine/Control.lean: HLT, JPZ, JMP (43_control.md) and the no-op of an undefined opcode
(40_step_cycle.md R85). Each meaning runs with `pc = ia + 2`. -/

namespace Sys2Proof.Machine

/-- HLT: halt, and emit the halt offset, the value of `pc`; the operand is ignored (43_control.md R140; the spec's decision
D8). -/
def execHlt (_a : Byte) (s : State) : Host.Outcome State Fault Refusal :=
  .next (s.halt.emit (.halt (uint s.pc)))

/-- JPZ: the operand replaces `pc` if the accumulator is 0x00 (43_control.md R143; the spec's decision D2). -/
def execJpz (a : Byte) (s : State) : Host.Outcome State Fault Refusal :=
  .next (if accIsZero s then s.setPc a else s)

/-- JMP: the operand replaces `pc` (43_control.md R146). -/
def execJmp (a : Byte) (s : State) : Host.Outcome State Fault Refusal :=
  .next (s.setPc a)

/-- An undefined opcode does nothing more than its fetches did (40_step_cycle.md R85, 30_encoding.md R66). -/
def execUndefined (_op _a : Byte) (s : State) : Host.Outcome State Fault Refusal :=
  .next s

end Sys2Proof.Machine
end

