-- ==== Sys2Proof/Machine/LoadStore.lean ====
section
/-! DEFINITION. Sys2Proof/Machine/LoadStore.lean: LDA and STA (42_load_store.md). Each meaning runs with `pc = ia + 2`. -/

namespace Sys2Proof.Machine

/-- LDA (42_load_store.md R120). -/
def execLda (a : Byte) (s : State) : Host.Outcome State Fault Refusal :=
  onCell .lda a s fun v => s.setAcc v

/-- STA (42_load_store.md R121). -/
def execSta (a : Byte) (s : State) : Host.Outcome State Fault Refusal :=
  storeCell .sta a s.acc s

end Sys2Proof.Machine
end

