-- ==== Sys2Proof/Machine/Logic.lean ====
section
/-! DEFINITION. Sys2Proof/Machine/Logic.lean: AND, OR, XOR, NOT (41_logic.md). Each meaning runs with `pc = ia + 2`. -/

namespace Sys2Proof.Machine

/-- AND (41_logic.md R100). -/
def execAnd (a : Byte) (s : State) : Host.Outcome State Fault Refusal :=
  onCell .and a s fun v => s.setAcc (aluAnd s.acc v)

/-- OR (41_logic.md R101). -/
def execOr (a : Byte) (s : State) : Host.Outcome State Fault Refusal :=
  onCell .or a s fun v => s.setAcc (aluOr s.acc v)

/-- XOR (41_logic.md R102). -/
def execXor (a : Byte) (s : State) : Host.Outcome State Fault Refusal :=
  onCell .xor a s fun v => s.setAcc (aluXor s.acc v)

/-- NOT; the operand is ignored and not range-checked (41_logic.md R103). -/
def execNot (_a : Byte) (s : State) : Host.Outcome State Fault Refusal :=
  .next (s.setAcc (aluNot s.acc))

end Sys2Proof.Machine
end

