-- ==== Sys2Proof/Machine/Output.lean ====
section
/-! DEFINITION. Sys2Proof/Machine/Output.lean: OUT (45_output.md). The meaning runs with `pc = ia + 2`. -/

namespace Sys2Proof.Machine

/-- OUT: emit the accumulator's signed value; the operand is ignored (45_output.md R180; the spec's decision D17). -/
def execOut (_a : Byte) (s : State) : Host.Outcome State Fault Refusal :=
  .next (s.emit (.out (sint s.acc)))

end Sys2Proof.Machine
end

