-- ==== Sys2Proof/Machine/Dispatch.lean ====
section
/-! DEFINITION. Sys2Proof/Machine/Dispatch.lean: each instruction's meaning (40_step_cycle.md R84). -/

namespace Sys2Proof.Machine

/-- The effect of an instruction on the state its fetches left, with `pc = ia + 2` (40_step_cycle.md R84). -/
def exec (i : Instr) (s : State) : Host.Outcome State Fault Refusal :=
  match i with
  | .and a => Sys2Proof.Machine.execAnd a s
  | .or a => Sys2Proof.Machine.execOr a s
  | .xor a => Sys2Proof.Machine.execXor a s
  | .not a => Sys2Proof.Machine.execNot a s
  | .lda a => Sys2Proof.Machine.execLda a s
  | .sta a => Sys2Proof.Machine.execSta a s
  | .hlt a => Sys2Proof.Machine.execHlt a s
  | .tst a => Sys2Proof.Machine.execTst a s
  | .jpz a => Sys2Proof.Machine.execJpz a s
  | .jmp a => Sys2Proof.Machine.execJmp a s
  | .add a => Sys2Proof.Machine.execAdd a s
  | .out a => Sys2Proof.Machine.execOut a s

end Sys2Proof.Machine
end

