-- ==== Sys2Proof/Machine/Fetch.lean ====
section
/-! DEFINITION. Sys2Proof/Machine/Fetch.lean: the bounds check and the two fetches of a step (40_step_cycle.md R81 to R83),
and placing a pair in the firmware from outside. -/

namespace Sys2Proof.Machine

/-- The bounds check lets the step go on: `uint(pc) + 2 < FW_SIZE`, over unbounded integers (40_step_cycle.md R81; the
spec's decision D7). -/
abbrev State.pairInBounds (s : State) : Prop := uint s.pc + 2 < s.params.fwSize

/-- What the two fetches leave: the locals `op` and `a`, and the state with `pc = ia + 2` (40_step_cycle.md R82, R83). -/
structure Fetched where
  op : Byte
  operand : Byte
  state : State
  deriving DecidableEq, Repr

/-- Fetch the byte at `pc` and advance `pc` by 1 (40_step_cycle.md R82, R83). -/
def fetchNext (s : State) : Except Fault (Byte × State) :=
  match fetchByte s s.pc with
  | .ok b => .ok (b, s.advancePc)
  | .error e => .error e

/-- The opcode fetch, then the operand fetch (40_step_cycle.md R82, R83). -/
def fetchPair (s : State) : Except Fault Fetched :=
  match fetchNext s with
  | .ok (op, s₁) =>
    match fetchNext s₁ with
    | .ok (a, s₂) => .ok { op := op, operand := a, state := s₂ }
    | .error e => .error e
  | .error e => .error e

/-- The pair stored in the firmware at `pc`, opcode first, where the next step fetches it. Where the bounds check keeps the
next step from fetching, nothing is stored (log entry 22). -/
def State.placePair (s : State) (op a : Byte) : State :=
  if s.pairInBounds then { s with fw := (s.fw.write (uint s.pc) op).write (uint s.pc + 1) a } else s

end Sys2Proof.Machine
end

