-- ==== Sys2Proof/Machine/Step.lean ====
section
/-! DEFINITION. Sys2Proof/Machine/Step.lean: one fetch-decode-execute cycle (40_step_cycle.md R86), and the host's way to
place the instruction it fetches. -/

namespace Sys2Proof.Machine

/-- One step: nothing on a halted engine (R80), the bounds check (R81), the two fetches (R82, R83), dispatch (R84), the
no-op of an undefined opcode (R85). Rules of 40_step_cycle.md; the order is 60_exceptions.md R207's. -/
def step (s : State) : Host.Outcome State Fault Refusal :=
  if s.halted then .next s
  else if s.pairInBounds then
    match fetchPair s with
    | .error e => .fault e
    | .ok f =>
      match decodePair f.state.params.opcodeMap f.op f.operand with
      | .instr i => exec i f.state
      | .undefinedOpcode op a => execUndefined op a f.state
  else .next s.halt

/-- The state with one instruction of the opcode table stored where the next step fetches it: its opcode byte at `pc`, its
operand byte at `pc + 1`. It stands for the loading of a program at construction (log entry 3). -/
def State.withFetchWord (s : State) (nbits w : Nat) : State :=
  s.placePair (tableWordBytes nbits w).1 (tableWordBytes nbits w).2

end Sys2Proof.Machine
end

