-- ==== Sys2Proof/Machine/Assembly.lean ====
section
/-! DEFINITION. Sys2Proof/Machine/Assembly.lean: the notation the spec writes programs in, as data, and its encoding
(30_encoding.md R70, R71). The notation's characters are not modelled, only what they stand for. -/

namespace Sys2Proof.Machine

/-- The names a listing may use: the twelve mnemonics and the synonym `CMP` (30_encoding.md R65, R70). -/
inductive AsmName where
  | core (m : Mnemonic)
  | cmp
  deriving DecidableEq, Repr

/-- An operand of a listing: a number, or a label (30_encoding.md R70). -/
inductive AsmOperand where
  | number (n : Nat)
  | label (l : String)
  deriving DecidableEq, Repr

/-- What a line of a listing puts in the firmware: an instruction, or a raw byte pair `.pair x, y` (30_encoding.md R70). -/
inductive AsmItem where
  | instr (name : AsmName) (operand : AsmOperand)
  | pair (x y : Nat)
  deriving DecidableEq, Repr

/-- A line of a listing: its labels, then its item (30_encoding.md R70). -/
structure AsmLine where
  labels : List String
  item : AsmItem
  deriving DecidableEq, Repr

/-- Why a listing has no encoding. -/
inductive AsmError where
  /-- A number that is no byte: R71 encodes `n` for `0 <= n <= 255` only. -/
  | notAByte (n : Nat)
  /-- A label no line carries. -/
  | unknownLabel (l : String)
  /-- A label two lines carry: the notation gives it no one instruction (log entry 20). -/
  | ambiguousLabel (l : String)
  deriving DecidableEq, Repr

/-- The mnemonic a name stands for: `CMP` is `TST` (30_encoding.md R65). -/
def AsmName.mnemonic : AsmName → Mnemonic
  | .core m => m
  | .cmp => .tst

/-- A number as a byte, refused by name outside 0 to 255 (30_encoding.md R71). -/
def asmByte (n : Nat) : Except AsmError Byte :=
  if n ≤ 255 then .ok (BitVec.ofNat 8 n) else .error (.notAByte n)

/-- The firmware offset of the instruction a label names: line `k` stands at offset `2k` (30_encoding.md R70). -/
def labelOffset (lines : List AsmLine) (l : String) : Except AsmError Nat :=
  match lines.findIdxs fun line => line.labels.contains l with
  | [] => .error (.unknownLabel l)
  | [k] => .ok (2 * k)
  | _ => .error (.ambiguousLabel l)

/-- The value of an operand (30_encoding.md R70). -/
def AsmOperand.value (lines : List AsmLine) : AsmOperand → Except AsmError Byte
  | .number n => asmByte n
  | .label l => labelOffset lines l >>= asmByte

/-- The two bytes of an item (30_encoding.md R70, R71). -/
def AsmItem.bytes (map : OpcodeMap) (lines : List AsmLine) : AsmItem → Except AsmError (Byte × Byte)
  | .instr name operand => do
    let a ← operand.value lines
    return encode map (name.mnemonic.instr a)
  | .pair x y => do
    let x ← asmByte x
    let y ← asmByte y
    return (x, y)

/-- The bytes of the lines `todo` of the listing `lines`, from the first of them on. -/
def assembleLines (map : OpcodeMap) (lines : List AsmLine) : List AsmLine → Except AsmError (List Byte)
  | [] => .ok []
  | line :: todo => do
    let (x, y) ← line.item.bytes map lines
    let rest ← assembleLines map lines todo
    return x :: y :: rest

/-- The firmware bytes of a listing, from offset 0 on (30_encoding.md R70, R71). -/
def assemble (map : OpcodeMap) (lines : List AsmLine) : Except AsmError (List Byte) :=
  assembleLines map lines lines

/-- A firmware image: the bytes a listing writes, then 0x00 (30_encoding.md R70). -/
def firmwareImage (fwSize : Nat) (bytes : List Byte) : List Byte :=
  bytes ++ List.replicate (fwSize - bytes.length) 0x00

end Sys2Proof.Machine
end

