-- ==== Sys2Proof/WellFormed.lean ====
section
/-! DEFINITION. Sys2Proof/WellFormed.lean: what must hold of the parameters and of the images an engine is constructed
from (00_scope.md R9, 30_encoding.md R64, 70_reset_and_hazards.md R223). An instruction has no check of its own: no
operand value is illegal for any instruction (30_encoding.md R67), and the operand's type holds 0 to 255 exactly. -/

namespace Sys2Proof

/-- The twelve opcode bytes, in the table's order. -/
def OpcodeMap.bytes (m : OpcodeMap) : List Byte :=
  [m.and, m.or, m.xor, m.not, m.lda, m.sta, m.hlt, m.tst, m.jpz, m.jmp, m.add, m.out]

/-- The opcode bytes of the seven memory instructions (00_scope.md R18). -/
def OpcodeMap.memoryOpcodes (m : OpcodeMap) : List Byte :=
  [m.and, m.or, m.xor, m.lda, m.sta, m.tst, m.add]

/-- The map gives the twelve mnemonics twelve different byte values (30_encoding.md R64). -/
abbrev OpcodeMap.Injective (m : OpcodeMap) : Prop := m.bytes.Nodup

/-- `MEM_SIZE` is an integer 1 to 256 (00_scope.md R9; the spec's decision D3). -/
abbrev Params.MemSizeLegal (p : Params) : Prop := 1 ≤ p.memSize ∧ p.memSize ≤ 256

/-- `FW_SIZE` is an integer 1 to 256 (00_scope.md R9; the spec's decision D3). -/
abbrev Params.FwSizeLegal (p : Params) : Prop := 1 ≤ p.fwSize ∧ p.fwSize ≤ 256

/-- The parameters have legal values; `ACC_INIT` may be any byte (00_scope.md R9). -/
abbrev Params.Legal (p : Params) : Prop := p.MemSizeLegal ∧ p.FwSizeLegal ∧ p.opcodeMap.Injective

/-- The two buffers have exactly the configured lengths (70_reset_and_hazards.md R223; the spec's decision D10). -/
abbrev Params.ImagesFit (p : Params) (memImage fwImage : List Byte) : Prop :=
  memImage.length = p.memSize ∧ fwImage.length = p.fwSize

end Sys2Proof
end

