-- ==== Sys2Proof/Machine/Construct.lean ====
section
/-! DEFINITION. Sys2Proof/Machine/Construct.lean: construction, the CORE's only reset (70_reset_and_hazards.md R220 to
R224), for any parameters and any images. -/

namespace Sys2Proof.Machine

/-- The state construction sets (70_reset_and_hazards.md R220). -/
def State.initial (p : Params) (memImage fwImage : List Byte) : State where
  params := p
  acc := p.accInit
  pc := 0
  halted := false
  fault := .none
  mem := Memory.ofBytes memImage
  fw := Memory.ofBytes fwImage
  events := []

/-- Construction from a memory buffer and a firmware buffer: refused for illegal parameters and for buffers of other
lengths than the configured ones (70_reset_and_hazards.md R223, 00_scope.md R9, 30_encoding.md R64). Which refusal is named
where several hold, the first in the order written here, and that a map that is not injective is refused here: DESIGN CHOICE,
safe, log entry 15. -/
def construct (p : Params) (memImage fwImage : List Byte) : Host.Outcome State Fault Refusal :=
  if ¬ p.MemSizeLegal then .refused (.memSizeIllegal p.memSize)
  else if ¬ p.FwSizeLegal then .refused (.fwSizeIllegal p.fwSize)
  else if ¬ p.opcodeMap.Injective then .refused .opcodeMapNotInjective
  else if memImage.length ≠ p.memSize then .refused (.memImageLength memImage.length)
  else if fwImage.length ≠ p.fwSize then .refused (.fwImageLength fwImage.length)
  else .next (State.initial p memImage fwImage)

/-- Construction from a program image: the memory image, then the firmware (70_reset_and_hazards.md R224). The image's length
is looked at before the parameters, so an image of the wrong length is named first where the parameters are illegal too:
DESIGN CHOICE, safe, log entry 15. -/
def constructFromImage (p : Params) (image : List Byte) : Host.Outcome State Fault Refusal :=
  if image.length ≠ p.memSize + p.fwSize then .refused (.programImageLength image.length)
  else construct p (image.take p.memSize) (image.drop p.memSize)

end Sys2Proof.Machine
end

