-- ==== Sys2Proof/Machine/Run.lean ====
section
/-! DEFINITION. Sys2Proof/Machine/Run.lean: the run-to-halt loop under fuel, and the three ways a run ends
(40_step_cycle.md R89 to R92). -/

namespace Sys2Proof.Machine

/-- The result of a run under fuel. Running out of fuel is no end of the run (93_implementation_defined.md row 11). -/
inductive RunResult where
  /-- The run ended in a halted state, after so many steps (40_step_cycle.md R90, R92). -/
  | halted (steps : Nat) (s : State)
  /-- The fuel ran out on a running engine: the run may be a hang (40_step_cycle.md R89). -/
  | outOfFuel (s : State)
  /-- A step stopped with a fault of the model; unreachable, see Fault. -/
  | fault (r : Fault)
  /-- A step refused; unreachable, see Refusal. -/
  | refused (r : Refusal)
  deriving DecidableEq, Repr

/-- One more step counted (40_step_cycle.md R92). -/
def RunResult.countStep : RunResult → RunResult
  | .halted n s => .halted (n + 1) s
  | r => r

/-- `while not halted do step()`, at most `fuel` steps (40_step_cycle.md R89). -/
def run : Nat → State → RunResult
  | 0, s => if s.halted then .halted 0 s else .outOfFuel s
  | fuel + 1, s =>
    if s.halted then .halted 0 s
    else
      match step s with
      | .next t => (run fuel t).countStep
      | .fault r => .fault r
      | .refused r => .refused r

/-- How a run ended (40_step_cycle.md R90). -/
inductive RunEnd where
  /-- A normal halt by HLT, with the halt offset. -/
  | hlt (offset : Nat)
  /-- A normal halt by the bounds check. -/
  | boundsCheck
  /-- An addressing fault, with its record. -/
  | addressFault (ia opcode operand : Byte)
  deriving DecidableEq, Repr

/-- The run's end, read from its final state; none while the engine runs (40_step_cycle.md R90). HLT's last step emits the
only Halt event, so a last event Halt(o) tells HLT from the bounds check. DEDUCED, log entry 17. -/
def runEnd (s : State) : Option RunEnd :=
  if s.halted then
    match s.fault with
    | .addressFault ia opcode operand => some (.addressFault ia opcode operand)
    | .none =>
      match s.events.getLast? with
      | some (.halt o) => some (.hlt o)
      | _ => some .boundsCheck
  else none

end Sys2Proof.Machine
end

