-- ==== Sys2Proof/Machine/Ports.lean ====
section
/-! DEFINITION. Sys2Proof/Machine/Ports.lean: the CORE's abstract interface (10_state.md R35). The three construction inputs
are construct's arguments, with cfg_acc_init in its parameters; the commands are step and run. -/

namespace Sys2Proof.Machine

/-- The output port `halted` (10_state.md R28, R35). -/
def State.haltedPort (s : State) : Bool := s.halted

/-- The output port `fault` (10_state.md R27, R35). -/
def State.faultPort (s : State) : FaultRecord := s.fault

/-- The output port `event_out`: the events of a step or a run from `s` to `t`, one for each Emit (10_state.md R34, R35). -/
def eventOut (s t : State) : List Event := t.events.drop s.events.length

/-- The output port `mem_out`: the data memory's bytes, after the halt only (10_state.md R35, 20_memory.md R49). -/
def State.memOut (s : State) : Option (List Byte) :=
  if s.halted then some (s.mem.toBytes s.params.memSize) else none

end Sys2Proof.Machine
end

