-- ==== Sys2Proof/Safety.lean ====
section
/-! DEFINITION. Sys2Proof/Safety.lean: the terms claims use: what the next step executes, what holds of every state an engine
can be in, and what counts as a run without a fault. -/

namespace Sys2Proof.Machine

/-- A memory instruction: its operand is a data address (00_scope.md R18, 30_encoding.md R61). -/
abbrev isMemory (i : Instr) : Prop := operandUse i.mnemonic = .dataAddress

/-- The next step passes the bounds check on a running engine, and the pair it fetches decodes to `d`
(40_step_cycle.md R81 to R84). -/
abbrev State.Fetches (s : State) (d : Decoded) : Prop :=
  s.halted = false ∧ s.pc.toNat + 2 < s.params.fwSize ∧
  decodePair s.params.opcodeMap (s.fw.read s.pc.toNat) (s.fw.read (s.pc + 1#8).toNat) = d

/-- The next step executes the instruction `i`. -/
abbrev State.Executes (s : State) (i : Instr) : Prop := s.Fetches (.instr i)

/-- Both stores are canonical and list nothing where their space has no byte (20_memory.md R48). -/
abbrev State.StoresOk (s : State) : Prop :=
  s.mem.wf ∧ s.mem.below s.params.memSize ∧ s.fw.wf ∧ s.fw.below s.params.fwSize

/-- A fault record is the record of the instruction that stopped the engine: the engine is halted with `pc = ia + 2`, the
firmware holds the recorded opcode and operand at `ia`, the opcode is a memory instruction's and the operand is out of
range (10_state.md R27, 60_exceptions.md R202, R203). -/
abbrev State.FaultOk (s : State) : Prop :=
  match s.fault with
  | .none => True
  | .addressFault ia opcode operand =>
    s.halted = true ∧ uint s.pc = uint ia + 2 ∧ uint s.pc < s.params.fwSize ∧
    s.fw.read (uint ia) = opcode ∧ s.fw.read (uint ia + 1) = operand ∧
    opcode ∈ s.params.opcodeMap.memoryOpcodes ∧ s.params.memSize ≤ uint operand

/-- An OUT event with a value it may carry, -128 to 127 (10_state.md R34). -/
def Event.isOut : Event → Bool
  | .out v => decide (-128 ≤ v) && decide (v ≤ 127)
  | .halt _ => false

/-- The event stream: OUT events with signed bytes, and at most one Halt event, the last one, which then tells that an HLT
at `pc - 2` halted the engine without a fault (10_state.md R34, 43_control.md R140, R141, 45_output.md R182). -/
abbrev State.EventsOk (s : State) : Prop :=
  (∀ e ∈ s.events.dropLast, e.isOut = true) ∧
  match s.events.getLast? with
  | none => True
  | some (.out v) => (Event.out v).isOut = true
  | some (.halt o) =>
    s.halted = true ∧ s.fault = .none ∧ o = uint s.pc ∧ 2 ≤ o ∧ o < s.params.fwSize ∧
    s.fw.read (o - 2) = s.params.opcodeMap.hlt

/-- The machine's invariant: legal parameters, canonical stores, a true fault record, a well-formed event stream. -/
abbrev State.Inv (s : State) : Prop :=
  s.params.Legal ∧ s.StoresOk ∧ s.FaultOk ∧ s.EventsOk

/-- A run that ended here is claimed about only without a fault (92_eei_decisions.md D4). -/
abbrev State.NoFault (s : State) : Prop := s.fault = .none

end Sys2Proof.Machine
end

