-- ==== Sys2Proof/Certificates/Slice0/Obligations.lean ====
section
/-! DEFINITION. Sys2Proof/Certificates/Slice0/Obligations.lean: the statements for the provers. In a statement about a step,
`s.pc` is the spec's `ia`. In a statement about an instruction's effect, which starts from the state its two fetches left,
`s.pc` is `ia + 2` (40_step_cycle.md R83). -/

open Sys2Proof Sys2Proof.Machine

/-! ## Encoding -/

/-- Decoding the words of any instruction, with any operand, under any injective map gives the instruction back
(30_encoding.md R62, R64, R71). -/
def Obligations.DecodeInvertsEncode : Prop :=
  ∀ (map : OpcodeMap), map.Injective → ∀ i : Instr,
    decodePair map (encode map i).1 (encode map i).2 = .instr i

/-- A pair that decodes to an instruction is that instruction's words: no two pairs are one instruction under one map. -/
def Obligations.EncodeInvertsDecode : Prop :=
  ∀ (map : OpcodeMap) (op a : Byte) (i : Instr),
    decodePair map op a = .instr i → encode map i = (op, a)

/-- 30_encoding.md R64: the recognised opcodes are the image of the map, and the other 244 byte values are undefined. -/
def Obligations.UndefinedOpcodesAreTheOther244 : Prop :=
  ∀ (map : OpcodeMap),
    (∀ op a : Byte, decodePair map op a = .undefinedOpcode op a ↔ op ∉ map.bytes) ∧
    (map.Injective → ∀ a : Byte,
      ((List.range 256).filter fun n =>
        decodePair map (BitVec.ofNat 8 n) a = .undefinedOpcode (BitVec.ofNat 8 n) a).length = 244)

/-- 30_encoding.md R62: the opcode byte alone selects the instruction; the operand only fills its operand field. -/
def Obligations.OperandTakesNoPartInSelection : Prop :=
  ∀ (map : OpcodeMap) (op : Byte),
    (op ∉ map.bytes ∧ ∀ a : Byte, decodePair map op a = .undefinedOpcode op a) ∨
    ∃ m : Mnemonic, map.byte m = op ∧ ∀ a : Byte, decodePair map op a = .instr (m.instr a)

/-- The default opcode values, which are the spec's decision D1 (30_encoding.md R63), read from the words of the opcode
table: opcode in bits 15:8, operand in bits 7:0 (R69, the spec's decision D18). -/
def Obligations.DefaultWordsDecode : Prop :=
  decodeTableWord 16 0x0105 = some (.and 5) ∧
  decodeTableWord 16 0x02FF = some (.or 255) ∧
  decodeTableWord 16 0x0301 = some (.xor 1) ∧
  decodeTableWord 16 0x04C8 = some (.not 200) ∧
  decodeTableWord 16 0x050F = some (.lda 15) ∧
  decodeTableWord 16 0x0602 = some (.sta 2) ∧
  decodeTableWord 16 0x0700 = some (.hlt 0) ∧
  decodeTableWord 16 0x0804 = some (.tst 4) ∧
  decodeTableWord 16 0x090C = some (.jpz 12) ∧
  decodeTableWord 16 0x0A10 = some (.jmp 16) ∧
  decodeTableWord 16 0x0B01 = some (.add 1) ∧
  decodeTableWord 16 0x0C63 = some (.out 99) ∧
  decodeTableWord 16 0x0005 = none ∧ decodeTableWord 16 0x0D05 = none ∧ decodeTableWord 16 0xFF01 = none

/-! ## The step -/

/-- 40_step_cycle.md R80: a step on a halted engine changes nothing. -/
def Obligations.StepOnHaltedChangesNothing : Prop :=
  ∀ s : State, s.halted = true → step s = .next s

/-- 40_step_cycle.md R81, with the spec's decisions D7 (the sum does not wrap) and D9 (no event): the bounds check halts the
engine, reads no firmware byte, and changes nothing else. -/
def Obligations.BoundsCheckHalts : Prop :=
  ∀ s : State, s.halted = false → s.params.fwSize ≤ s.pc.toNat + 2 →
    step s = .next { s with halted := true }

/-- A step runs the decoded instruction: on a running engine whose bounds check passes, the step is the effect of the
instruction decoded from the bytes at `pc` and `pc + 1`, on the state with `pc` advanced by 2
(40_step_cycle.md R82, R83, R84). -/
def Obligations.StepRunsDecodedInstruction : Prop :=
  ∀ (s : State) (i : Instr), s.Executes i →
    step s = exec i { s with pc := s.pc + 2#8 }

/-- 40_step_cycle.md R85: an undefined opcode consumes its two bytes and changes nothing else. -/
def Obligations.UndefinedOpcodeIsNop : Prop :=
  ∀ (s : State) (op a : Byte), s.Fetches (.undefinedOpcode op a) →
    step s = .next { s with pc := s.pc + 2#8 }

/-- 40_step_cycle.md R91: no step refuses or blocks. Every step answers a next state, by exactly one of the four ways of
R80, R81, R82 to R84 and R85; in particular no fetch and no data access ever leaves its space. -/
def Obligations.EveryStepAnswersNextState : Prop :=
  ∀ s : State, ∃ t : State, step s = .next t ∧
    ((s.halted = true ∧ t = s) ∨
     (s.halted = false ∧ s.params.fwSize ≤ s.pc.toNat + 2 ∧ t = { s with halted := true }) ∨
     (∃ i : Instr, s.Executes i ∧ exec i { s with pc := s.pc + 2#8 } = .next t) ∨
     (∃ op a : Byte, s.Fetches (.undefinedOpcode op a) ∧ t = { s with pc := s.pc + 2#8 }))

/-- Every step keeps the invariant: legal parameters, canonical stores with nothing listed outside their space, a fault
record that tells the truth about the firmware, an event stream with at most one Halt event, the last. -/
def Obligations.StepKeepsInvariant : Prop :=
  ∀ s t : State, s.Inv → step s = .next t → t.Inv

/-- The invariant holds at reset. -/
def Obligations.ResetHasInvariant : Prop := State.reset.Inv

/-- 20_memory.md R54: no store changes a later instruction fetch. Over any number of steps the firmware keeps every byte;
the parameters, the opcode map among them, stay too. -/
def Obligations.FirmwareNeverChanges : Prop :=
  ∀ (k : Nat) (s t : State), Host.Core.run Sys2Proof.core k s = .next t →
    t.fw = s.fw ∧ t.params = s.params

/-- 10_state.md R24: how `pc` moves. A jump taken replaces it with the operand; every other pair advances it by 2; the bounds
check and a step on a halted engine leave it. -/
def Obligations.PcMoves : Prop :=
  ∀ s t : State, step s = .next t →
    (∀ a : Byte, s.Executes (.jmp a) → t.pc = a) ∧
    (∀ a : Byte, s.Executes (.jpz a) → t.pc = if s.acc = 0#8 then a else s.pc + 2#8) ∧
    (∀ i : Instr, s.Executes i → (∀ a : Byte, i ≠ .jmp a ∧ i ≠ .jpz a) → t.pc = s.pc + 2#8) ∧
    (∀ op a : Byte, s.Fetches (.undefinedOpcode op a) → t.pc = s.pc + 2#8) ∧
    (s.halted = true ∨ s.params.fwSize ≤ s.pc.toNat + 2 → t.pc = s.pc)

/-- `pc` never wraps around, an inference the spec marks as its own (10_state.md R25): with a legal FW_SIZE, a step that
executes no jump moves `pc` up by exactly 2, and the operand is fetched from the byte after the opcode. -/
def Obligations.PcNeverWraps : Prop :=
  ∀ s t : State, s.params.Legal → s.halted = false → s.pc.toNat + 2 < s.params.fwSize → step s = .next t →
    (s.pc + 1#8).toNat = s.pc.toNat + 1 ∧
    ((∀ a : Byte, ¬ s.Executes (.jmp a) ∧ ¬ s.Executes (.jpz a)) → t.pc.toNat = s.pc.toNat + 2)

/-- 10_state.md R29, with the spec's decision D4 for the third trigger: the engine starts running; a running engine halts by
HLT, by the bounds check or by an addressing fault, and by nothing else; a halted engine stays halted. The fault record
changes in the last case only: that engine has stopped on a fault, any other normally. -/
def Obligations.HaltTriggers : Prop :=
  State.reset.halted = false ∧
  ∀ s t : State, step s = .next t →
    (s.halted = true → t.halted = true) ∧
    (s.halted = false →
      (t.halted = true ↔
        s.params.fwSize ≤ s.pc.toNat + 2 ∨ (∃ a : Byte, s.Executes (.hlt a)) ∨
        ∃ i : Instr, s.Executes i ∧ isMemory i ∧ s.params.memSize ≤ i.operand.toNat)) ∧
    (s.halted = false → s.fault = .none →
      (t.fault ≠ .none ↔ ∃ i : Instr, s.Executes i ∧ isMemory i ∧ s.params.memSize ≤ i.operand.toNat))

/-- 43_control.md R141: after an HLT no later step changes anything, so none emits an event. -/
def Obligations.NothingHappensAfterHlt : Prop :=
  ∀ (s : State) (a : Byte) (k : Nat), s.Executes (.hlt a) →
    ∃ t : State, step s = .next t ∧ t.halted = true ∧ Host.Core.run Sys2Proof.core k t = .next t

/-- 60_exceptions.md R202, which is the spec's decision D4: a memory instruction whose operand is at or past MEM_SIZE writes
its address, its opcode byte and its operand byte to the fault record and halts; `pc` keeps `ia + 2`, and nothing else
changes. -/
def Obligations.AddressFaultStopsEngine : Prop :=
  ∀ (s : State) (i : Instr), s.Executes i → isMemory i → s.params.memSize ≤ i.operand.toNat →
    step s = .next { s with
      pc := s.pc + 2#8
      halted := true
      fault := .addressFault s.pc (s.fw.read s.pc.toNat) (s.fw.read (s.pc + 1#8).toNat) }

/-- The fault record is written by an addressing fault only, and the fault is precise, an inference the spec marks as its own
(60_exceptions.md R204): a step that changes the record changed `pc`, the halted flag and the record, and nothing else. -/
def Obligations.FaultIsPrecise : Prop :=
  ∀ s t : State, step s = .next t → t.fault ≠ s.fault →
    ∃ i : Instr, s.Executes i ∧ isMemory i ∧ s.params.memSize ≤ i.operand.toNat ∧
      t = { s with
        pc := s.pc + 2#8
        halted := true
        fault := .addressFault s.pc (s.fw.read s.pc.toNat) i.operand }

/-- 60_exceptions.md R201, with the spec's decisions D4 and D11: the seven memory instructions run the range check, which
raises AddressFault with the instruction's address, opcode byte and operand byte; no other does. For each of the other five,
and for an undefined opcode, no operand is out of range, and the size of the data memory plays no part in the effect. -/
def Obligations.OnlyMemoryInstructionsRangeCheck : Prop :=
  ∀ (s : State),
    (∀ i : Instr, isMemory i ↔ i.mnemonic ∈ [Mnemonic.and, .or, .xor, .lda, .sta, .tst, .add]) ∧
    (∀ (i : Instr) (ia : Byte), s.pc = ia + 2#8 → isMemory i → s.params.memSize ≤ i.operand.toNat →
      ∃ t : State, exec i s = .next t ∧ t.halted = true ∧
        t.fault = .addressFault ia (s.params.opcodeMap.byte i.mnemonic) i.operand) ∧
    (∀ i : Instr, isMemory i → i.operand.toNat < s.params.memSize →
      ∃ t : State, exec i s = .next t ∧ t.halted = s.halted ∧ t.fault = s.fault) ∧
    (∀ i : Instr, ¬ isMemory i → ∃ t : State, exec i s = .next t ∧ t.fault = s.fault ∧
      ∀ n : Nat, exec i { s with params := { s.params with memSize := n } } =
        .next { t with params := { t.params with memSize := n } }) ∧
    (∀ op a : Byte, s.Fetches (.undefinedOpcode op a) → ∃ t : State, step s = .next t ∧ t.fault = s.fault)

/-- A data cell changes only by STA to its index, and takes the accumulator's byte (20_memory.md R47, 42_load_store.md R121).
The premise is the invariant's canonical form of the memory. -/
def Obligations.MemoryChangesOnlyBySta : Prop :=
  ∀ (s t : State) (n : Nat), s.mem.wf → step s = .next t → t.mem.read n ≠ s.mem.read n →
    ∃ a : Byte, s.Executes (.sta a) ∧ a.toNat < s.params.memSize ∧ n = a.toNat ∧ t.mem.read n = s.acc

/-- The accumulator's writers, an inference the spec marks as its own (10_state.md R21): AND, OR, XOR, NOT, LDA, ADD, and
TST where the accumulator equals the cell. -/
def Obligations.AccumulatorWriters : Prop :=
  ∀ s t : State, step s = .next t → t.acc ≠ s.acc →
    ∃ i : Instr, s.Executes i ∧
      (i.mnemonic ∈ [Mnemonic.and, .or, .xor, .not, .lda, .add] ∨
       ∃ a : Byte, i = .tst a ∧ s.acc = s.mem.read a.toNat ∧ t.acc = 0#8)

/-- 45_output.md R181 and R182: HLT and OUT are the only sources of events, one event each, appended behind those of the
steps before. -/
def Obligations.EventsComeFromHltAndOut : Prop :=
  ∀ s t : State, step s = .next t →
    (∀ a : Byte, s.Executes (.hlt a) → t.events = s.events ++ [.halt (s.pc + 2#8).toNat]) ∧
    (∀ a : Byte, s.Executes (.out a) → t.events = s.events ++ [.out s.acc.toInt]) ∧
    ((∀ a : Byte, ¬ s.Executes (.hlt a) ∧ ¬ s.Executes (.out a)) → t.events = s.events)

/-- No firmware byte at or past FW_SIZE is ever read (10_state.md R26, 20_memory.md R48): two engines that differ only there
take the same steps. That the last byte, at FW_SIZE - 1, is never fetched either is an inference that the spec marks as its own
(40_step_cycle.md R88, from R81), drawn from the bounds check and the two fetches (R81 to R83). -/
def Obligations.FirmwareEndIsNeverRead : Prop :=
  ∀ (s t : State) (g : Memory), (∀ n : Nat, n + 1 < s.params.fwSize → g.read n = s.fw.read n) →
    step s = .next t → step { s with fw := g } = .next { t with fw := g }

/-- No data cell at or past MEM_SIZE is ever read or written (20_memory.md R42, R48): two engines that differ only there
take the same steps, and go on to differ only there. -/
def Obligations.AbsentCellsAreNeverUsed : Prop :=
  ∀ (s t : State) (g : Memory), s.mem.wf → g.wf →
    (∀ n : Nat, n < s.params.memSize → g.read n = s.mem.read n) → step s = .next t →
    ∃ h : Memory, step { s with mem := g } = .next { t with mem := h } ∧
      (∀ n : Nat, n < s.params.memSize → h.read n = t.mem.read n) ∧
      (∀ n : Nat, s.params.memSize ≤ n → h.read n = g.read n ∧ t.mem.read n = s.mem.read n)

/-- A jump to itself loops forever, and no bounds check stops it (43_control.md R146, 40_step_cycle.md R89): any number of
steps leaves the whole state as it is. -/
def Obligations.SelfJumpNeverEnds : Prop :=
  ∀ (s : State) (k : Nat), s.Executes (.jmp s.pc) → Host.Core.run Sys2Proof.core k s = .next s

/-! ## The instructions -/

/-- 41_logic.md R100, whole: AND's default opcode (the spec's decision D1), its result, and its addressing fault (D4). -/
def Obligations.AndEffect : Prop :=
  ∀ (a : Byte) (s : State),
    decodePair OpcodeMap.default 0x01#8 a = .instr (.and a) ∧
    (a.toNat < s.params.memSize → exec (.and a) s = .next { s with acc := s.acc &&& s.mem.read a.toNat }) ∧
    (∀ ia : Byte, s.pc = ia + 2#8 → s.params.memSize ≤ a.toNat → exec (.and a) s = .next { s with
      halted := true, fault := .addressFault ia s.params.opcodeMap.and a })

/-- 41_logic.md R101, whole: OR's default opcode (D1), its result, and its addressing fault (D4). -/
def Obligations.OrEffect : Prop :=
  ∀ (a : Byte) (s : State),
    decodePair OpcodeMap.default 0x02#8 a = .instr (.or a) ∧
    (a.toNat < s.params.memSize → exec (.or a) s = .next { s with acc := s.acc ||| s.mem.read a.toNat }) ∧
    (∀ ia : Byte, s.pc = ia + 2#8 → s.params.memSize ≤ a.toNat → exec (.or a) s = .next { s with
      halted := true, fault := .addressFault ia s.params.opcodeMap.or a })

/-- 41_logic.md R102, whole: XOR's default opcode (D1), its result, and its addressing fault (D4). -/
def Obligations.XorEffect : Prop :=
  ∀ (a : Byte) (s : State),
    decodePair OpcodeMap.default 0x03#8 a = .instr (.xor a) ∧
    (a.toNat < s.params.memSize → exec (.xor a) s = .next { s with acc := s.acc ^^^ s.mem.read a.toNat }) ∧
    (∀ ia : Byte, s.pc = ia + 2#8 → s.params.memSize ≤ a.toNat → exec (.xor a) s = .next { s with
      halted := true, fault := .addressFault ia s.params.opcodeMap.xor a })

/-- NOT (41_logic.md R103): its default opcode (D1) and its result for every operand, which is ignored (D11). The last clause,
that the result read in two's complement is `-sint(acc) - 1`, is an inference that R103 marks as its own (from R12 and R13). -/
def Obligations.NotEffect : Prop :=
  ∀ (a : Byte) (s : State),
    decodePair OpcodeMap.default 0x04#8 a = .instr (.not a) ∧
    exec (.not a) s = .next { s with acc := ~~~s.acc } ∧
    (~~~s.acc).toInt = -s.acc.toInt - 1

/-- 42_load_store.md R120, whole: LDA's default opcode (D1), its result, and its addressing fault (D4), which no operand
raises where MEM_SIZE is 256. -/
def Obligations.LdaEffect : Prop :=
  ∀ (a : Byte) (s : State),
    decodePair OpcodeMap.default 0x05#8 a = .instr (.lda a) ∧
    (a.toNat < s.params.memSize → exec (.lda a) s = .next { s with acc := s.mem.read a.toNat }) ∧
    (s.params.memSize = 256 → exec (.lda a) s = .next { s with acc := s.mem.read a.toNat }) ∧
    (∀ ia : Byte, s.pc = ia + 2#8 → s.params.memSize ≤ a.toNat → exec (.lda a) s = .next { s with
      halted := true, fault := .addressFault ia s.params.opcodeMap.lda a })

/-- 42_load_store.md R121, whole: STA's default opcode (D1), its result, and its addressing fault (D4). The cell at the
operand takes the accumulator, every other address reads as before, and nothing but the memory changes. The premise of the
result is the invariant's canonical form of the memory. -/
def Obligations.StaEffect : Prop :=
  ∀ (a : Byte) (s : State),
    decodePair OpcodeMap.default 0x06#8 a = .instr (.sta a) ∧
    (s.mem.wf → a.toNat < s.params.memSize → ∃ t : State, exec (.sta a) s = .next t ∧
      t = { s with mem := t.mem } ∧ t.mem.read a.toNat = s.acc ∧
      ∀ n : Nat, n ≠ a.toNat → t.mem.read n = s.mem.read n) ∧
    (∀ ia : Byte, s.pc = ia + 2#8 → s.params.memSize ≤ a.toNat → exec (.sta a) s = .next { s with
      halted := true, fault := .addressFault ia s.params.opcodeMap.sta a })

/-- 43_control.md R140, whole: HLT's default opcode (D1) and its effect for every operand, which is ignored (D11): the engine
halts and one event carries the halt offset, the value of `pc`, which is `ia + 2` (D8). -/
def Obligations.HltEffect : Prop :=
  ∀ (a : Byte) (s : State),
    decodePair OpcodeMap.default 0x07#8 a = .instr (.hlt a) ∧
    exec (.hlt a) s = .next { s with halted := true, events := s.events ++ [.halt s.pc.toNat] }

/-- 44_arith_compare.md R160, whole: TST's default opcode (D1), its result on equality and otherwise, and its addressing
fault (D4). -/
def Obligations.TstEffect : Prop :=
  ∀ (a : Byte) (s : State),
    decodePair OpcodeMap.default 0x08#8 a = .instr (.tst a) ∧
    (a.toNat < s.params.memSize → s.acc = s.mem.read a.toNat →
      exec (.tst a) s = .next { s with acc := 0#8 }) ∧
    (a.toNat < s.params.memSize → s.acc ≠ s.mem.read a.toNat → exec (.tst a) s = .next s) ∧
    (∀ ia : Byte, s.pc = ia + 2#8 → s.params.memSize ≤ a.toNat → exec (.tst a) s = .next { s with
      halted := true, fault := .addressFault ia s.params.opcodeMap.tst a })

/-- 43_control.md R143, whole: JPZ's default opcode (D1) and its effect, gated on a zero accumulator (D2), for every operand:
no operand is range-checked (D11). -/
def Obligations.JpzEffect : Prop :=
  ∀ (a : Byte) (s : State),
    decodePair OpcodeMap.default 0x09#8 a = .instr (.jpz a) ∧
    (s.acc = 0#8 → exec (.jpz a) s = .next { s with pc := a }) ∧
    (s.acc ≠ 0#8 → exec (.jpz a) s = .next s)

/-- 43_control.md R146, whole: JMP's default opcode (D1) and its effect for every operand. -/
def Obligations.JmpEffect : Prop :=
  ∀ (a : Byte) (s : State),
    decodePair OpcodeMap.default 0x0A#8 a = .instr (.jmp a) ∧
    exec (.jmp a) s = .next { s with pc := a }

/-- ADD (44_arith_compare.md R162): its default opcode (D1), its result, the exact signed sum wrapped to 8 bits, and its
addressing fault (D4). The clause that the result is also the unsigned sum modulo 256 is an inference that R162 marks as its
own (from R12 and R13). -/
def Obligations.AddEffect : Prop :=
  ∀ (a : Byte) (s : State),
    decodePair OpcodeMap.default 0x0B#8 a = .instr (.add a) ∧
    (a.toNat < s.params.memSize → ∃ v : Byte, exec (.add a) s = .next { s with acc := v } ∧
      v = BitVec.ofInt 8 (s.acc.toInt + (s.mem.read a.toNat).toInt) ∧
      v.toNat = (s.acc.toNat + (s.mem.read a.toNat).toNat) % 256) ∧
    (∀ ia : Byte, s.pc = ia + 2#8 → s.params.memSize ≤ a.toNat → exec (.add a) s = .next { s with
      halted := true, fault := .addressFault ia s.params.opcodeMap.add a })

/-- 45_output.md R180, whole: OUT's default opcode (D1) and its effect for every operand, which is ignored (D11): one event
carries the accumulator's signed value (D17). -/
def Obligations.OutEffect : Prop :=
  ∀ (a : Byte) (s : State),
    decodePair OpcodeMap.default 0x0C#8 a = .instr (.out a) ∧
    exec (.out a) s = .next { s with events := s.events ++ [.out s.acc.toInt] } ∧
    -128 ≤ s.acc.toInt ∧ s.acc.toInt ≤ 127

/-- The frame of AND, OR, XOR, NOT, LDA, TST and ADD: only the accumulator changes; where the addressing fault is taken, only
the halted flag and the fault record. Every byte of memory reads as before. -/
def Obligations.AccumulatorInstructionsFrame : Prop :=
  ∀ (i : Instr) (s t : State), i.mnemonic ∈ [Mnemonic.and, .or, .xor, .not, .lda, .tst, .add] →
    exec i s = .next t →
    t.params = s.params ∧ t.pc = s.pc ∧ t.events = s.events ∧
    (∀ n : Nat, t.mem.read n = s.mem.read n) ∧ (∀ n : Nat, t.fw.read n = s.fw.read n) ∧
    (t.halted = s.halted ∧ t.fault = s.fault ∨
      t.halted = true ∧ t.acc = s.acc ∧ isMemory i ∧ s.params.memSize ≤ i.operand.toNat)

/-- The frame of STA: every register, the event stream and the firmware are unchanged, and every byte of memory outside the
cell at the operand; where the addressing fault is taken, every byte of memory, and only the halted flag and the fault record
change. -/
def Obligations.StaFrame : Prop :=
  ∀ (a : Byte) (s t : State), s.mem.wf → exec (.sta a) s = .next t →
    t.params = s.params ∧ t.acc = s.acc ∧ t.pc = s.pc ∧ t.events = s.events ∧
    (∀ n : Nat, t.fw.read n = s.fw.read n) ∧
    (∀ n : Nat, n ≠ a.toNat → t.mem.read n = s.mem.read n) ∧
    (a.toNat < s.params.memSize → t.halted = s.halted ∧ t.fault = s.fault) ∧
    (s.params.memSize ≤ a.toNat → ∀ n : Nat, t.mem.read n = s.mem.read n)

/-- The frame of HLT, JPZ, JMP and OUT: the accumulator, the fault record, the memory and the firmware are unchanged; a jump
changes only `pc`, OUT only the event stream, HLT only the halted flag and the event stream. -/
def Obligations.ControlAndOutputFrame : Prop :=
  ∀ (i : Instr) (s t : State), i.mnemonic ∈ [Mnemonic.hlt, .jpz, .jmp, .out] → exec i s = .next t →
    t.params = s.params ∧ t.acc = s.acc ∧ t.fault = s.fault ∧
    (∀ n : Nat, t.mem.read n = s.mem.read n) ∧ (∀ n : Nat, t.fw.read n = s.fw.read n) ∧
    (i.mnemonic ∈ [Mnemonic.jpz, .jmp] → t.halted = s.halted ∧ t.events = s.events) ∧
    (i.mnemonic ∈ [Mnemonic.hlt, .out] → t.pc = s.pc) ∧
    (i.mnemonic = .out → t.halted = s.halted)

/-- 42_load_store.md R123: for any accumulator and any legal address, STA then LDA on it leaves the accumulator and the cell
with the accumulator's value, wherever the two instructions stand. The premise is the invariant's canonical form. -/
def Obligations.StaLdaRoundTrip : Prop :=
  ∀ (s : State) (a p : Byte), s.mem.wf → a.toNat < s.params.memSize →
    ∃ t u : State, exec (.sta a) s = .next t ∧ exec (.lda a) { t with pc := p } = .next u ∧
      u.acc = s.acc ∧ u.mem.read a.toNat = s.acc

/-- TST then JPZ, an inference the spec marks as its own (44_arith_compare.md R161): the jump is taken when the accumulator
equalled the cell before TST, and also when it was already 0. -/
def Obligations.TstThenJpz : Prop :=
  ∀ (s : State) (n a p : Byte), n.toNat < s.params.memSize →
    ∃ t u : State, exec (.tst n) s = .next t ∧ exec (.jpz a) { t with pc := p } = .next u ∧
      u.pc = if s.acc = s.mem.read n.toNat ∨ s.acc = 0#8 then a else p

/-- 44_arith_compare.md R163: an accumulator of 120 and a cell of 10 give -126 (0x82) after the first ADD and -116 (0x8C)
after the second. -/
def Obligations.AddTwiceWraps : Prop :=
  ∀ (s : State) (a p : Byte), a.toNat < s.params.memSize → s.acc = 120#8 → s.mem.read a.toNat = 10#8 →
    ∃ t u : State, exec (.add a) s = .next t ∧ exec (.add a) { t with pc := p } = .next u ∧
      t.acc = 0x82#8 ∧ t.acc.toInt = -126 ∧ u.acc = 0x8C#8 ∧ u.acc.toInt = -116

/-! ## Construction -/

/-- 70_reset_and_hazards.md R220, with the image of R224: construction from a program image sets every piece of state. -/
def Obligations.ConstructionSetsState : Prop :=
  ∀ (p : Params) (image : List Byte), p.Legal → image.length = p.memSize + p.fwSize →
    ∃ s : State, constructFromImage p image = .next s ∧
      s.params = p ∧ s.acc = p.accInit ∧ s.pc = 0#8 ∧ s.halted = false ∧ s.fault = .none ∧ s.events = [] ∧
      (∀ i : Nat, i < p.memSize → some (s.mem.read i) = image[i]?) ∧
      (∀ j : Nat, j < p.fwSize → some (s.fw.read j) = image[p.memSize + j]?)

/-- 70_reset_and_hazards.md R223, the spec's decision D10: an engine is constructed from buffers of exactly the configured
lengths and refused from any others. Illegal sizes are refused too (00_scope.md R9, D3). That a map that is not injective
(30_encoding.md R64) is refused at construction is the model's choice (log entries 14 and 15, DESIGN CHOICE). -/
def Obligations.ConstructionRefusesOtherLengths : Prop :=
  ∀ (p : Params) (memImage fwImage : List Byte),
    (p.Legal → memImage.length = p.memSize → fwImage.length = p.fwSize →
      ∃ s : State, construct p memImage fwImage = .next s) ∧
    (¬ p.Legal ∨ memImage.length ≠ p.memSize ∨ fwImage.length ≠ p.fwSize →
      ∃ r : Refusal, construct p memImage fwImage = .refused r)

/-- Every constructed engine has the invariant. -/
def Obligations.ConstructedEngineHasInvariant : Prop :=
  ∀ (p : Params) (memImage fwImage : List Byte) (s : State),
    construct p memImage fwImage = .next s → s.Inv

/-- The reset state is the engine constructed with the default parameters from images of zeros, which are the model's choice
(log entries 2 and 3): accumulator 0, pc 0, running, no fault, no event, no byte listed. -/
def Obligations.ResetIsDefaultConstruction : Prop :=
  construct Params.default (List.replicate 16 0#8) (List.replicate 256 0#8) = .next State.reset ∧
  State.reset.acc = 0#8 ∧ State.reset.pc = 0#8 ∧ State.reset.halted = false ∧ State.reset.fault = .none ∧
  State.reset.mem = [] ∧ State.reset.fw = [] ∧ State.reset.events = []

/-! ## Runs and ports -/

/-- The run-to-halt loop under fuel (40_step_cycle.md R89, R92): it ends halted after `n` steps just when `n` steps reach the
first halted state, and running out of fuel leaves a running engine. It never stops otherwise. -/
def Obligations.RunStopsAtFirstHalt : Prop :=
  ∀ (fuel : Nat) (s : State),
    (∃ (n : Nat) (t : State), run fuel s = .halted n t ∧ n ≤ fuel ∧ t.halted = true ∧
      Host.Core.run Sys2Proof.core n s = .next t ∧
      ∀ m : Nat, m < n → ∃ u : State, Host.Core.run Sys2Proof.core m s = .next u ∧ u.halted = false) ∨
    (∃ t : State, run fuel s = .outOfFuel t ∧ t.halted = false ∧
      Host.Core.run Sys2Proof.core fuel s = .next t)

/-- How a run ends, an inference the spec marks as its own (40_step_cycle.md R90), read by the model from the final state
(log entry 17): the step that halts a running engine ends the run by HLT, by the bounds check or by a fault, as the step
did. -/
def Obligations.RunEndsAreTold : Prop :=
  ∀ s t : State, s.Inv → s.halted = false → step s = .next t →
    (s.params.fwSize ≤ s.pc.toNat + 2 → runEnd t = some .boundsCheck) ∧
    (∀ a : Byte, s.Executes (.hlt a) → runEnd t = some (.hlt (s.pc.toNat + 2))) ∧
    (∀ i : Instr, s.Executes i → isMemory i → s.params.memSize ≤ i.operand.toNat →
      runEnd t = some (.addressFault s.pc (s.fw.read s.pc.toNat) i.operand)) ∧
    (t.halted = false → runEnd t = none)

/-- The output ports (10_state.md R35, the spec's decision D5): after the halt `mem_out` gives MEM_SIZE bytes, the cells in
order, and nothing before it; `event_out` gives the events a step emitted. -/
def Obligations.PortsShowMemoryAndEvents : Prop :=
  (∀ s : State, s.halted = false → s.memOut = none) ∧
  (∀ s : State, s.halted = true → ∃ bytes : List Byte, s.memOut = some bytes ∧
    bytes.length = s.params.memSize ∧ ∀ n : Nat, n < s.params.memSize → bytes[n]? = some (s.mem.read n)) ∧
  (∀ s t : State, step s = .next t → t.events = s.events ++ eventOut s t ∧ (eventOut s t).length ≤ 1)
end

