-- ==== Sys2Proof/Laws/Decode.lean ====
section
/-! SUPPORT. Sys2Proof/Laws/Decode.lean: what the decoder and its parts can answer. -/

namespace Sys2Proof

theorem Mnemonic.mem_all (m : Mnemonic) : m ∈ Mnemonic.all := by cases m <;> decide

@[simp] theorem Mnemonic.mnemonic_instr (m : Mnemonic) (a : Byte) : (m.instr a).mnemonic = m := by
  cases m <;> rfl

@[simp] theorem Mnemonic.operand_instr (m : Mnemonic) (a : Byte) : (m.instr a).operand = a := by
  cases m <;> rfl

@[simp] theorem Instr.instr_mnemonic (i : Instr) : i.mnemonic.instr i.operand = i := by
  cases i <;> rfl

/-- The map's bytes are its values at the twelve mnemonics, in the table's order. -/
theorem OpcodeMap.bytes_eq (map : OpcodeMap) : map.bytes = Mnemonic.all.map map.byte := rfl

theorem OpcodeMap.byte_mem (map : OpcodeMap) (m : Mnemonic) : map.byte m ∈ map.bytes := by
  rw [OpcodeMap.bytes_eq]
  exact List.mem_map_of_mem m.mem_all

/-- Two mnemonics of an injective map with one byte are one mnemonic (30_encoding.md R64). -/
theorem OpcodeMap.Injective.eq {map : OpcodeMap} (h : map.Injective) {m n : Mnemonic}
    (e : map.byte m = map.byte n) : m = n := by
  rw [OpcodeMap.Injective, OpcodeMap.bytes_eq] at h
  exact List.inj_on_of_nodup_map h m.mem_all n.mem_all e

/-- A selected mnemonic has the opcode byte. -/
theorem byte_of_decodeOpcode {map : OpcodeMap} {op : Byte} {m : Mnemonic} (h : decodeOpcode map op = some m) :
    map.byte m = op := by
  simpa using List.find?_some h

/-- No mnemonic is selected just when the byte is none of the map's (30_encoding.md R66). -/
theorem decodeOpcode_eq_none {map : OpcodeMap} {op : Byte} : decodeOpcode map op = none ↔ op ∉ map.bytes := by
  rw [decodeOpcode, List.find?_eq_none, OpcodeMap.bytes_eq, List.mem_map]
  simp

/-- A decoded instruction has the pair's operand, and its mnemonic's opcode is the pair's. -/
theorem decodePair_instr {map : OpcodeMap} {op a : Byte} {i : Instr} (h : decodePair map op a = .instr i) :
    map.byte i.mnemonic = op ∧ i.operand = a := by
  unfold decodePair at h
  split at h
  · next m hm => cases h; simpa using byte_of_decodeOpcode hm
  · cases h

end Sys2Proof
end

