-- ==== Sys2Proof/Laws/Memory.lean ====
section
/-! SUPPORT. Sys2Proof/Laws/Memory.lean: what each operation of a byte store does, and that each keeps the canonical form. -/

namespace Sys2Proof.Machine

@[simp] theorem Memory.read_nil (a : Nat) : Memory.read [] a = unlistedByte := rfl

theorem Memory.wf_nil : Memory.wf [] := ⟨List.Pairwise.nil, by simp⟩

/-- An address below every listed address reads as unlisted. -/
theorem Memory.read_of_lt {m : Memory} {a : Nat} (h : ∀ c ∈ m, a < c.1) : m.read a = unlistedByte := by
  induction m with
  | nil => rfl
  | cons c m ih =>
    obtain ⟨b, v⟩ := c
    have hb : a < b := h (b, v) (by simp)
    have hne : a ≠ b := Nat.ne_of_lt hb
    simp only [Memory.read, hne, if_false]
    exact ih fun c hc => h c (by simp [hc])

theorem Memory.wf_cons {c : Host.Cell} {m : Memory} :
    Memory.wf (c :: m) ↔ (∀ d ∈ m, c.1 < d.1) ∧ c.2 ≠ unlistedByte ∧ Memory.wf m := by
  simp only [Memory.wf, List.pairwise_cons, List.mem_cons, forall_eq_or_imp]
  tauto

/-- Putting a byte in front keeps the canonical form. -/
theorem Memory.cons_wf {a : Nat} {v : Byte} {m : Memory} (hm : m.wf) (h : ∀ c ∈ m, a < c.1) :
    (Memory.cons a v m).wf := by
  unfold Memory.cons
  split
  · exact hm
  · exact Memory.wf_cons.2 ⟨h, ‹_›, hm⟩

/-- A store with a byte put in front reads as that byte there and as before elsewhere. -/
theorem Memory.read_cons {a b : Nat} {v : Byte} {m : Memory} (h : ∀ c ∈ m, a < c.1) :
    (Memory.cons a v m).read b = if b = a then v else m.read b := by
  unfold Memory.cons
  split
  · next hv =>
    split
    · next hb => rw [hb, Memory.read_of_lt h, hv]
    · rfl
  · rfl

theorem Memory.mem_cons {a : Nat} {v : Byte} {m : Memory} {c : Host.Cell}
    (h : c ∈ Memory.cons a v m) : c.1 = a ∨ c ∈ m := by
  unfold Memory.cons at h
  split at h
  · exact .inr h
  · rcases List.mem_cons.1 h with rfl | h
    · exact .inl rfl
    · exact .inr h

/-- A write lists no address but its own and those listed before. -/
theorem Memory.mem_write {m : Memory} {a : Nat} {v : Byte} {c : Host.Cell}
    (h : c ∈ m.write a v) : c.1 = a ∨ c ∈ m := by
  induction m with
  | nil => exact Memory.mem_cons h
  | cons d m ih =>
    obtain ⟨b, w⟩ := d
    simp only [Memory.write] at h
    split at h
    · exact Memory.mem_cons h
    · split at h
      · exact (Memory.mem_cons h).imp_right fun hm => by simp [hm]
      · rcases List.mem_cons.1 h with rfl | h
        · exact .inr (by simp)
        · exact (ih h).imp_right fun hm => by simp [hm]

/-- A write keeps the canonical form. -/
theorem Memory.write_wf {m : Memory} (hm : m.wf) (a : Nat) (v : Byte) : (m.write a v).wf := by
  induction m with
  | nil => exact Memory.cons_wf hm (by simp)
  | cons d m ih =>
    obtain ⟨b, w⟩ := d
    obtain ⟨hlt, hw, hwf⟩ := Memory.wf_cons.1 hm
    simp only [Memory.write]
    split
    · next hab =>
      refine Memory.cons_wf hm fun c hc => ?_
      rcases List.mem_cons.1 hc with rfl | hc
      · exact hab
      · exact lt_trans hab (hlt c hc)
    · split
      · next hab => exact Memory.cons_wf hwf fun c hc => hab ▸ hlt c hc
      · refine Memory.wf_cons.2 ⟨fun c hc => ?_, hw, ih hwf⟩
        rcases Memory.mem_write hc with h | h
        · simp only [h]; omega
        · exact hlt c h

/-- A write below a bound keeps every listed address below it. -/
theorem Memory.write_below {m : Memory} {n a : Nat} (hm : m.below n) (ha : a < n) (v : Byte) :
    (m.write a v).below n := fun c hc => by
  rcases Memory.mem_write hc with h | h
  · omega
  · exact hm c h

/-- Reading after a write: the byte written at its address, the byte of before elsewhere (20_memory.md R43). -/
theorem Memory.read_write {m : Memory} (hm : m.wf) (a b : Nat) (v : Byte) :
    (m.write a v).read b = if b = a then v else m.read b := by
  induction m with
  | nil => exact Memory.read_cons (by simp)
  | cons d m ih =>
    obtain ⟨c, w⟩ := d
    obtain ⟨hlt, _, hwf⟩ := Memory.wf_cons.1 hm
    simp only [Memory.write]
    split
    · next hac =>
      refine Memory.read_cons fun d hd => ?_
      rcases List.mem_cons.1 hd with rfl | hd
      · exact hac
      · exact lt_trans hac (hlt d hd)
    · split
      · next hac =>
        subst hac
        rw [Memory.read_cons hlt]
        simp only [Memory.read]
        split <;> rfl
      · simp only [Memory.read, ih hwf]
        split
        · next hbc => rw [if_neg (by omega)]
        · rfl

theorem Memory.ofBytesFrom_addr {a : Nat} {image : List Byte} {c : Host.Cell}
    (h : c ∈ Memory.ofBytesFrom a image) : a ≤ c.1 ∧ c.1 < a + image.length := by
  induction image generalizing a with
  | nil => simp [Memory.ofBytesFrom] at h
  | cons v image ih =>
    simp only [List.length_cons]
    rcases Memory.mem_cons h with h | h
    · omega
    · have := ih h; omega

theorem Memory.ofBytesFrom_wf (a : Nat) (image : List Byte) : (Memory.ofBytesFrom a image).wf := by
  induction image generalizing a with
  | nil => exact Memory.wf_nil
  | cons v image ih =>
    exact Memory.cons_wf (ih (a + 1)) fun c hc => by have := Memory.ofBytesFrom_addr hc; omega

theorem Memory.read_ofBytesFrom {a : Nat} {image : List Byte} {i : Nat} (h : i < image.length) :
    (Memory.ofBytesFrom a image).read (a + i) = image[i] := by
  induction image generalizing a i with
  | nil => simp at h
  | cons v image ih =>
    have hlt : ∀ c ∈ Memory.ofBytesFrom (a + 1) image, a < c.1 := fun c hc => by
      have := Memory.ofBytesFrom_addr hc; omega
    rw [Memory.ofBytesFrom, Memory.read_cons hlt]
    cases i with
    | zero => simp
    | succ i =>
      rw [if_neg (by omega), show a + (i + 1) = a + 1 + i by omega, ih (by simpa using h)]
      simp

/-- An image of unlisted bytes lists nothing. -/
theorem Memory.ofBytesFrom_replicate (a n : Nat) :
    Memory.ofBytesFrom a (List.replicate n unlistedByte) = [] := by
  induction n generalizing a with
  | zero => rfl
  | succ n ih => rw [List.replicate_succ, Memory.ofBytesFrom, ih, Memory.cons, if_pos rfl]

/-- The store of an image is canonical. -/
theorem Memory.ofBytes_wf (image : List Byte) : (Memory.ofBytes image).wf := Memory.ofBytesFrom_wf 0 image

/-- The store of an image lists nothing past the image. -/
theorem Memory.ofBytes_below (image : List Byte) : (Memory.ofBytes image).below image.length := fun c hc => by
  have := Memory.ofBytesFrom_addr hc; omega

/-- The store of an image reads as the image (70_reset_and_hazards.md R220). -/
theorem Memory.read_ofBytes {image : List Byte} {i : Nat} (h : i < image.length) :
    (Memory.ofBytes image).read i = image[i] := by
  simpa [Memory.ofBytes] using Memory.read_ofBytesFrom (a := 0) h

@[simp] theorem Memory.length_toBytes (m : Memory) (n : Nat) : (m.toBytes n).length = n := by
  simp [Memory.toBytes]

/-- The memories of the reset state are canonical. -/
theorem State.reset_mem_wf : State.reset.mem.wf ∧ State.reset.fw.wf :=
  ⟨Memory.wf_nil, Memory.wf_nil⟩

end Sys2Proof.Machine
end

