-- ==== Sys2Proof/Laws/State.lean ====
section
/-! SUPPORT. Sys2Proof/Laws/State.lean: one lemma for each field under each named update of the state. -/

namespace Sys2Proof.Machine

@[simp] theorem State.setAcc_params (s : State) (v : Byte) :
    (s.setAcc v).params = s.params := rfl

@[simp] theorem State.setAcc_acc (s : State) (v : Byte) :
    (s.setAcc v).acc = v := rfl

@[simp] theorem State.setAcc_pc (s : State) (v : Byte) :
    (s.setAcc v).pc = s.pc := rfl

@[simp] theorem State.setAcc_halted (s : State) (v : Byte) :
    (s.setAcc v).halted = s.halted := rfl

@[simp] theorem State.setAcc_fault (s : State) (v : Byte) :
    (s.setAcc v).fault = s.fault := rfl

@[simp] theorem State.setAcc_mem (s : State) (v : Byte) :
    (s.setAcc v).mem = s.mem := rfl

@[simp] theorem State.setAcc_fw (s : State) (v : Byte) :
    (s.setAcc v).fw = s.fw := rfl

@[simp] theorem State.setAcc_events (s : State) (v : Byte) :
    (s.setAcc v).events = s.events := rfl

@[simp] theorem State.setPc_params (s : State) (p : Byte) :
    (s.setPc p).params = s.params := rfl

@[simp] theorem State.setPc_acc (s : State) (p : Byte) :
    (s.setPc p).acc = s.acc := rfl

@[simp] theorem State.setPc_pc (s : State) (p : Byte) :
    (s.setPc p).pc = p := rfl

@[simp] theorem State.setPc_halted (s : State) (p : Byte) :
    (s.setPc p).halted = s.halted := rfl

@[simp] theorem State.setPc_fault (s : State) (p : Byte) :
    (s.setPc p).fault = s.fault := rfl

@[simp] theorem State.setPc_mem (s : State) (p : Byte) :
    (s.setPc p).mem = s.mem := rfl

@[simp] theorem State.setPc_fw (s : State) (p : Byte) :
    (s.setPc p).fw = s.fw := rfl

@[simp] theorem State.setPc_events (s : State) (p : Byte) :
    (s.setPc p).events = s.events := rfl

@[simp] theorem State.advancePc_params (s : State) :
    (s.advancePc).params = s.params := rfl

@[simp] theorem State.advancePc_acc (s : State) :
    (s.advancePc).acc = s.acc := rfl

@[simp] theorem State.advancePc_pc (s : State) :
    (s.advancePc).pc = wrap8 (uint s.pc + 1) := rfl

@[simp] theorem State.advancePc_halted (s : State) :
    (s.advancePc).halted = s.halted := rfl

@[simp] theorem State.advancePc_fault (s : State) :
    (s.advancePc).fault = s.fault := rfl

@[simp] theorem State.advancePc_mem (s : State) :
    (s.advancePc).mem = s.mem := rfl

@[simp] theorem State.advancePc_fw (s : State) :
    (s.advancePc).fw = s.fw := rfl

@[simp] theorem State.advancePc_events (s : State) :
    (s.advancePc).events = s.events := rfl

@[simp] theorem State.halt_params (s : State) :
    (s.halt).params = s.params := rfl

@[simp] theorem State.halt_acc (s : State) :
    (s.halt).acc = s.acc := rfl

@[simp] theorem State.halt_pc (s : State) :
    (s.halt).pc = s.pc := rfl

@[simp] theorem State.halt_halted (s : State) :
    (s.halt).halted = true := rfl

@[simp] theorem State.halt_fault (s : State) :
    (s.halt).fault = s.fault := rfl

@[simp] theorem State.halt_mem (s : State) :
    (s.halt).mem = s.mem := rfl

@[simp] theorem State.halt_fw (s : State) :
    (s.halt).fw = s.fw := rfl

@[simp] theorem State.halt_events (s : State) :
    (s.halt).events = s.events := rfl

@[simp] theorem State.emit_params (s : State) (e : Event) :
    (s.emit e).params = s.params := rfl

@[simp] theorem State.emit_acc (s : State) (e : Event) :
    (s.emit e).acc = s.acc := rfl

@[simp] theorem State.emit_pc (s : State) (e : Event) :
    (s.emit e).pc = s.pc := rfl

@[simp] theorem State.emit_halted (s : State) (e : Event) :
    (s.emit e).halted = s.halted := rfl

@[simp] theorem State.emit_fault (s : State) (e : Event) :
    (s.emit e).fault = s.fault := rfl

@[simp] theorem State.emit_mem (s : State) (e : Event) :
    (s.emit e).mem = s.mem := rfl

@[simp] theorem State.emit_fw (s : State) (e : Event) :
    (s.emit e).fw = s.fw := rfl

@[simp] theorem State.emit_events (s : State) (e : Event) :
    (s.emit e).events = s.events ++ [e] := rfl

@[simp] theorem State.raiseAddressFault_params (s : State) (ia op a : Byte) :
    (s.raiseAddressFault ia op a).params = s.params := rfl

@[simp] theorem State.raiseAddressFault_acc (s : State) (ia op a : Byte) :
    (s.raiseAddressFault ia op a).acc = s.acc := rfl

@[simp] theorem State.raiseAddressFault_pc (s : State) (ia op a : Byte) :
    (s.raiseAddressFault ia op a).pc = s.pc := rfl

@[simp] theorem State.raiseAddressFault_halted (s : State) (ia op a : Byte) :
    (s.raiseAddressFault ia op a).halted = true := rfl

@[simp] theorem State.raiseAddressFault_fault (s : State) (ia op a : Byte) :
    (s.raiseAddressFault ia op a).fault = .addressFault ia op a := rfl

@[simp] theorem State.raiseAddressFault_mem (s : State) (ia op a : Byte) :
    (s.raiseAddressFault ia op a).mem = s.mem := rfl

@[simp] theorem State.raiseAddressFault_fw (s : State) (ia op a : Byte) :
    (s.raiseAddressFault ia op a).fw = s.fw := rfl

@[simp] theorem State.raiseAddressFault_events (s : State) (ia op a : Byte) :
    (s.raiseAddressFault ia op a).events = s.events := rfl

@[simp] theorem State.addressFaultOf_params (s : State) (m : Mnemonic) (a : Byte) :
    (s.addressFaultOf m a).params = s.params := rfl

@[simp] theorem State.addressFaultOf_acc (s : State) (m : Mnemonic) (a : Byte) :
    (s.addressFaultOf m a).acc = s.acc := rfl

@[simp] theorem State.addressFaultOf_pc (s : State) (m : Mnemonic) (a : Byte) :
    (s.addressFaultOf m a).pc = s.pc := rfl

@[simp] theorem State.addressFaultOf_halted (s : State) (m : Mnemonic) (a : Byte) :
    (s.addressFaultOf m a).halted = true := rfl

@[simp] theorem State.addressFaultOf_fault (s : State) (m : Mnemonic) (a : Byte) :
    (s.addressFaultOf m a).fault = .addressFault s.instrAddress (s.params.opcodeMap.byte m) a := rfl

@[simp] theorem State.addressFaultOf_mem (s : State) (m : Mnemonic) (a : Byte) :
    (s.addressFaultOf m a).mem = s.mem := rfl

@[simp] theorem State.addressFaultOf_fw (s : State) (m : Mnemonic) (a : Byte) :
    (s.addressFaultOf m a).fw = s.fw := rfl

@[simp] theorem State.addressFaultOf_events (s : State) (m : Mnemonic) (a : Byte) :
    (s.addressFaultOf m a).events = s.events := rfl

end Sys2Proof.Machine
end

