-- ==== Sys2Proof/Laws/Ops.lean ====
section
/-! SUPPORT. Sys2Proof/Laws/Ops.lean: for each shared operation, everything it can do. -/

namespace Sys2Proof.Machine

/-- The exact increment wrapped is the byte's own increment (00_scope.md R13). -/
theorem wrap8_uint_add (b : Byte) (n : Nat) : wrap8 (uint b + n) = b + BitVec.ofNat 8 n := by
  apply BitVec.eq_of_toNat_eq
  simp only [wrap8, uint, BitVec.toNat_add, BitVec.toNat_ofNat, BitVec.toNat_ofInt]
  omega

/-- The address of the executing instruction, from `pc = ia + 2`. -/
theorem State.instrAddress_eq (s : State) : s.instrAddress = s.pc - 2#8 := by
  apply BitVec.eq_of_toNat_eq
  simp only [State.instrAddress, wrap8, uint, BitVec.toNat_sub, BitVec.toNat_ofNat, BitVec.toNat_ofInt]
  omega

theorem State.advancePc_eq (s : State) : s.advancePc = s.setPc (s.pc + 1#8) := by
  have h := wrap8_uint_add s.pc 1
  simp only [Nat.cast_one] at h
  simp [State.advancePc, h]

@[simp] theorem State.setPc_setPc (s : State) (p q : Byte) : (s.setPc p).setPc q = s.setPc q := rfl

/-- The firmware is read below FW_SIZE. -/
theorem fetchByte_of_lt {s : State} {a : Byte} (h : a.toNat < s.params.fwSize) :
    fetchByte s a = .ok (s.fw.read a.toNat) := if_pos h

/-- A cell is read below MEM_SIZE. -/
theorem memRead_of_lt {s : State} {a : Byte} (h : a.toNat < s.params.memSize) :
    memRead s a = .ok (s.mem.read a.toNat) := if_pos h

/-- A cell is written below MEM_SIZE. -/
theorem memWrite_of_lt {s : State} {a : Byte} (v : Byte) (h : a.toNat < s.params.memSize) :
    memWrite s a v = .ok { s with mem := s.mem.write a.toNat v } := if_pos h

/-- A reading memory instruction: the cell goes to `f` below MEM_SIZE, else the addressing fault is taken. -/
theorem onCell_eq (m : Mnemonic) (a : Byte) (s : State) (f : Byte → State) :
    onCell m a s f =
      .next (if a.toNat < s.params.memSize then f (s.mem.read a.toNat) else s.addressFaultOf m a) := by
  by_cases h : a.toNat < s.params.memSize
  · simp only [onCell, State.hasCell, h, if_true, memRead_of_lt h]
  · simp only [onCell, State.hasCell, h, if_false]

/-- A storing memory instruction: the cell is written below MEM_SIZE, else the addressing fault is taken. -/
theorem storeCell_eq (m : Mnemonic) (a v : Byte) (s : State) :
    storeCell m a v s =
      .next (if a.toNat < s.params.memSize then { s with mem := s.mem.write a.toNat v }
        else s.addressFaultOf m a) := by
  by_cases h : a.toNat < s.params.memSize
  · simp only [storeCell, State.hasCell, h, if_true, memWrite_of_lt v h]
  · simp only [storeCell, State.hasCell, h, if_false]

/-- The addressing fault, written out. -/
theorem State.addressFaultOf_eq (s : State) (m : Mnemonic) (a : Byte) :
    s.addressFaultOf m a =
      { s with halted := true, fault := .addressFault (s.pc - 2#8) (s.params.opcodeMap.byte m) a } := by
  simp [State.addressFaultOf, State.raiseAddressFault, State.halt, State.instrAddress_eq]

/-- Past the bounds check the two fetches read the pair at `pc` and leave `pc = ia + 2`
(40_step_cycle.md R82, R83). -/
theorem fetchPair_of_inBounds {s : State} (h : s.pairInBounds) :
    fetchPair s =
      .ok { op := s.fw.read s.pc.toNat, operand := s.fw.read (s.pc + 1#8).toNat, state := s.setPc (s.pc + 2#8) } := by
  have h : s.pc.toNat + 2 < s.params.fwSize := h
  have h1 : (s.pc + 1#8).toNat ≤ s.pc.toNat + 1 := by
    rw [BitVec.toNat_add]; exact Nat.mod_le _ _
  have e1 : fetchByte s s.pc = .ok (s.fw.read s.pc.toNat) := fetchByte_of_lt (by omega)
  have e2 : fetchByte (s.setPc (s.pc + 1#8)) (s.pc + 1#8) = .ok (s.fw.read (s.pc + 1#8).toNat) :=
    fetchByte_of_lt (by simp only [State.setPc_params]; omega)
  have e3 : s.pc + 1#8 + 1#8 = s.pc + 2#8 := by rw [BitVec.add_assoc]; rfl
  simp only [fetchPair, fetchNext, e1, State.advancePc_eq, State.setPc_pc, e2, e3, State.setPc_setPc]

/-- For a legal FW_SIZE the increments of a step do not wrap (10_state.md R25). -/
theorem toNat_pc_add_two {s : State} (hf : s.params.fwSize ≤ 256) (h : s.pairInBounds) :
    (s.pc + 2#8).toNat = s.pc.toNat + 2 ∧ (s.pc + 1#8).toNat = s.pc.toNat + 1 := by
  have h : s.pc.toNat + 2 < s.params.fwSize := h
  constructor <;> simp only [BitVec.toNat_add, BitVec.toNat_ofNat] <;> omega

/-- A placed pair keeps both stores canonical. -/
theorem State.placePair_wf {s : State} (h : s.fw.wf) (op a : Byte) : (s.placePair op a).fw.wf := by
  unfold State.placePair
  split
  · exact Memory.write_wf (Memory.write_wf h _ _) _ _
  · exact h

end Sys2Proof.Machine
end

