-- ==== Sys2Proof/Laws/PerInstr.lean ====
section
/-! SUPPORT. Sys2Proof/Laws/PerInstr.lean: facts about each instruction as syntax, one lemma for each constructor. -/

namespace Sys2Proof.Laws.EncodingLayout

/-- The layout of an instruction's words: the opcode byte of its mnemonic first, its operand byte, as it stands, second
(30_encoding.md R60, R71). -/
def Statement (i : Instr) : Prop :=
  ∀ map : OpcodeMap, encode map i = (map.byte i.mnemonic, i.operand)

theorem and (a : Byte) : Statement (.and a) := fun _ => rfl

theorem or (a : Byte) : Statement (.or a) := fun _ => rfl

theorem xor (a : Byte) : Statement (.xor a) := fun _ => rfl

theorem not (a : Byte) : Statement (.not a) := fun _ => rfl

theorem lda (a : Byte) : Statement (.lda a) := fun _ => rfl

theorem sta (a : Byte) : Statement (.sta a) := fun _ => rfl

theorem hlt (a : Byte) : Statement (.hlt a) := fun _ => rfl

theorem tst (a : Byte) : Statement (.tst a) := fun _ => rfl

theorem jpz (a : Byte) : Statement (.jpz a) := fun _ => rfl

theorem jmp (a : Byte) : Statement (.jmp a) := fun _ => rfl

theorem add (a : Byte) : Statement (.add a) := fun _ => rfl

theorem out (a : Byte) : Statement (.out a) := fun _ => rfl

end Sys2Proof.Laws.EncodingLayout
end

