-- ==== Sys2Proof/Laws/Step.lean ====
section
/-! SUPPORT. Sys2Proof/Laws/Step.lean: everything a step can do, and what running some steps is. -/

namespace Sys2Proof.Machine

/-- The whole step with its fetches carried out (40_step_cycle.md R86). -/
theorem step_eq (s : State) :
    step s =
      if s.halted then .next s
      else if s.pairInBounds then
        match decodePair s.params.opcodeMap (s.fw.read s.pc.toNat) (s.fw.read (s.pc + 1#8).toNat) with
        | .instr i => exec i (s.setPc (s.pc + 2#8))
        | .undefinedOpcode _ _ => .next (s.setPc (s.pc + 2#8))
      else .next s.halt := by
  unfold step
  by_cases hb : s.pairInBounds
  · cases hd : decodePair s.params.opcodeMap (s.fw.read s.pc.toNat) (s.fw.read (s.pc + 1#8).toNat) <;>
      simp only [fetchPair_of_inBounds hb, State.setPc_params, hd, execUndefined]
  · simp only [if_neg hb]

/-- Each instruction's answer, with its shared operations carried out: no instruction stops the model. -/
theorem exec_eq (i : Instr) (s : State) :
    exec i s = .next
      (match i with
      | .and a => if a.toNat < s.params.memSize then s.setAcc (s.acc &&& s.mem.read a.toNat) else s.addressFaultOf .and a
      | .or a => if a.toNat < s.params.memSize then s.setAcc (s.acc ||| s.mem.read a.toNat) else s.addressFaultOf .or a
      | .xor a => if a.toNat < s.params.memSize then s.setAcc (s.acc ^^^ s.mem.read a.toNat) else s.addressFaultOf .xor a
      | .not _ => s.setAcc (~~~s.acc)
      | .lda a => if a.toNat < s.params.memSize then s.setAcc (s.mem.read a.toNat) else s.addressFaultOf .lda a
      | .sta a =>
        if a.toNat < s.params.memSize then { s with mem := s.mem.write a.toNat s.acc } else s.addressFaultOf .sta a
      | .hlt _ => s.halt.emit (.halt s.pc.toNat)
      | .tst a =>
        if a.toNat < s.params.memSize then s.setAcc (if s.acc = s.mem.read a.toNat then 0#8 else s.acc)
        else s.addressFaultOf .tst a
      | .jpz a => if s.acc = 0#8 then s.setPc a else s
      | .jmp a => s.setPc a
      | .add a =>
        if a.toNat < s.params.memSize then
          s.setAcc (BitVec.ofInt 8 (s.acc.toInt + (s.mem.read a.toNat).toInt))
        else s.addressFaultOf .add a
      | .out _ => s.emit (.out s.acc.toInt)) := by
  cases i with
  | and a => exact onCell_eq _ _ _ _
  | or a => exact onCell_eq _ _ _ _
  | xor a => exact onCell_eq _ _ _ _
  | not a => rfl
  | lda a => exact onCell_eq _ _ _ _
  | sta a => exact storeCell_eq _ _ _ _
  | hlt a => rfl
  | tst a => exact onCell_eq _ _ _ _
  | jpz a =>
    by_cases h : s.acc = 0#8
    · simp [exec, execJpz, accIsZero, h]
    · simp [exec, execJpz, accIsZero, h]
  | jmp a => rfl
  | add a => exact onCell_eq _ _ _ _
  | out a => rfl

/-- The four ways a step answers a next state (60_exceptions.md R207). -/
theorem step_next_cases {s t : State} (h : step s = .next t) :
    (s.halted = true ∧ t = s) ∨
    (s.halted = false ∧ ¬ s.pairInBounds ∧ t = s.halt) ∨
    (s.halted = false ∧ s.pairInBounds ∧
      (∃ op a, decodePair s.params.opcodeMap (s.fw.read s.pc.toNat) (s.fw.read (s.pc + 1#8).toNat) =
        .undefinedOpcode op a) ∧ t = s.setPc (s.pc + 2#8)) ∨
    (s.halted = false ∧ s.pairInBounds ∧
      ∃ i, decodePair s.params.opcodeMap (s.fw.read s.pc.toNat) (s.fw.read (s.pc + 1#8).toNat) = .instr i ∧
        exec i (s.setPc (s.pc + 2#8)) = .next t) := by
  rw [step_eq] at h
  by_cases hh : s.halted = true
  · rw [if_pos hh] at h
    cases h
    exact .inl ⟨hh, rfl⟩
  · rw [if_neg hh] at h
    have hf : s.halted = false := by simpa using hh
    by_cases hb : s.pairInBounds
    · rw [if_pos hb] at h
      generalize hd : decodePair s.params.opcodeMap (s.fw.read s.pc.toNat) (s.fw.read (s.pc + 1#8).toNat) = d at h
      cases d with
      | instr i => exact .inr (.inr (.inr ⟨hf, hb, i, rfl, h⟩))
      | undefinedOpcode op a =>
        cases h
        exact .inr (.inr (.inl ⟨hf, hb, ⟨op, a, rfl⟩, rfl⟩))
    · rw [if_neg hb] at h
      cases h
      exact .inr (.inl ⟨hf, hb, rfl⟩)

/-- One more step in front of a run of `k` steps of any machine, where the step answers a next state. -/
theorem core_run_succ (M : Host.Core) (k : Nat) (s t : M.State) (h : M.step s = .next t) :
    M.run (k + 1) s = M.run k t := by
  have e : M.run (k + 1) s =
      match M.step s with
      | .next u => M.run k u
      | .fault r => .fault r
      | .refused r => .refused r := rfl
  rw [e, h]

/-- The same, for the CORE. -/
theorem run_succ {s t : State} (h : step s = .next t) (k : Nat) :
    Host.Core.run Sys2Proof.core (k + 1) s = Host.Core.run Sys2Proof.core k t :=
  core_run_succ Sys2Proof.core k s t h

end Sys2Proof.Machine
end

