-- ==== Sys2Proof/Tests/Slice0.lean ====
section
/-! SUPPORT. Sys2Proof/Tests/Slice0.lean: small tests with results taken from the spec (95_test_vectors.md, named V-…, and
the rules' own examples), and a witness for the hypotheses of each statement. -/

namespace Sys2Proof.Tests

open Sys2Proof Sys2Proof.Machine

/-- The next state of an outcome. -/
def next? (o : Host.Outcome State Fault Refusal) : Option State :=
  match o with
  | .next s => some s
  | _ => none

/-- The refusal of an outcome. -/
def refusal? (o : Host.Outcome State Fault Refusal) : Option Refusal :=
  match o with
  | .refused r => some r
  | _ => none

/-- The reset engine with an accumulator, one data cell and one pair at offset 0. -/
def engine (acc cellAddr cell op a : Byte) : State :=
  { State.reset with acc := acc, mem := State.reset.mem.write cellAddr.toNat cell }.placePair op a

/-- The accumulator, the program counter and the fault record after one step. -/
def accPcFault (s : State) : Option (Byte × Byte × FaultRecord) := (next? (step s)).map fun t => (t.acc, t.pc, t.fault)

/-- The program counter, the halted flag, the fault record and the events after one step. -/
def pcHaltedEvents (s : State) : Option (Byte × Bool × FaultRecord × List Event) :=
  (next? (step s)).map fun t => (t.pc, t.halted, t.fault, t.events)

/-! ## Decoding, from the patterns of 41_logic.md to 45_output.md written bit by bit -/

theorem test_decode_and : decodePair OpcodeMap.default 0b00000001#8 0b00000101#8 = .instr (.and 5) := by decide
theorem test_decode_or : decodePair OpcodeMap.default 0b00000010#8 0b11111111#8 = .instr (.or 255) := by decide
theorem test_decode_xor : decodePair OpcodeMap.default 0b00000011#8 0b00000001#8 = .instr (.xor 1) := by decide
theorem test_decode_not : decodePair OpcodeMap.default 0b00000100#8 0b11001000#8 = .instr (.not 200) := by decide
theorem test_decode_lda : decodePair OpcodeMap.default 0b00000101#8 0b00001111#8 = .instr (.lda 15) := by decide
theorem test_decode_sta : decodePair OpcodeMap.default 0b00000110#8 0b00000010#8 = .instr (.sta 2) := by decide
theorem test_decode_hlt : decodePair OpcodeMap.default 0b00000111#8 0b00000000#8 = .instr (.hlt 0) := by decide
theorem test_decode_tst : decodePair OpcodeMap.default 0b00001000#8 0b00000100#8 = .instr (.tst 4) := by decide
theorem test_decode_jpz : decodePair OpcodeMap.default 0b00001001#8 0b00001100#8 = .instr (.jpz 12) := by decide
theorem test_decode_jmp : decodePair OpcodeMap.default 0b00001010#8 0b00010000#8 = .instr (.jmp 16) := by decide
theorem test_decode_add : decodePair OpcodeMap.default 0b00001011#8 0b00000001#8 = .instr (.add 1) := by decide
theorem test_decode_out : decodePair OpcodeMap.default 0b00001100#8 0b01100011#8 = .instr (.out 99) := by decide

/-- 30_encoding.md R63: 0x00 and 0x0D are undefined; a stream of one byte is no pair (R60). -/
theorem test_decode_undefined :
    decodePair OpcodeMap.default 0x00 0xEE = .undefinedOpcode 0x00 0xEE ∧
    decodePair OpcodeMap.default 0x0D 0xEE = .undefinedOpcode 0x0D 0xEE ∧
    decode OpcodeMap.default [0x01] = .error .truncated := by decide

/-- 30_encoding.md R69: the opcode stands in bits 15:8 of the table's word. -/
theorem test_table_word : decodeTableWord 16 0x0B01 = some (.add 1) ∧ decodeTableWord 16 0x010B = some (.and 11) := by decide

/-- The placed word is the instruction the first step after reset runs. -/
theorem test_withFetchWord_runs_first :
    pcHaltedEvents (State.reset.withFetchWord 16 0x0700) = some (2, true, .none, [.halt 2]) := by decide

/-! ## Well-formedness: an ill-formed term for each check -/

theorem test_memSize_zero_refused : ¬ ({ Params.default with memSize := 0 } : Params).Legal := by decide
theorem test_memSize_257_refused : ¬ ({ Params.default with memSize := 257 } : Params).Legal := by decide
theorem test_fwSize_zero_refused : ¬ ({ Params.default with fwSize := 0 } : Params).Legal := by decide
theorem test_fwSize_257_refused : ¬ ({ Params.default with fwSize := 257 } : Params).Legal := by decide
theorem test_default_legal : Params.default.Legal := by decide

/-- 30_encoding.md R64: two mnemonics with one byte. -/
theorem test_map_not_injective_refused : ¬ ({ OpcodeMap.default with out := 0x01 } : OpcodeMap).Injective := by decide

/-- 70_reset_and_hazards.md R223: a buffer one byte short of MEM_SIZE = 2, and one of FW_SIZE = 3. -/
theorem test_short_images_refused :
    let p : Params := { Params.default with memSize := 2, fwSize := 3 }
    ¬ p.ImagesFit [1] [1, 2, 3] ∧ ¬ p.ImagesFit [1, 2] [1, 2] ∧ p.ImagesFit [1, 2] [1, 2, 3] ∧
    refusal? (construct p [1] [1, 2, 3]) = some (.memImageLength 1) ∧
    refusal? (construct p [1, 2] [1, 2]) = some (.fwImageLength 2) ∧
    refusal? (constructFromImage p [1, 2, 3, 4]) = some (.programImageLength 4) := by decide

theorem test_illegal_parameters_refused_by_name :
    refusal? (construct { Params.default with memSize := 257 } [] []) = some (.memSizeIllegal 257) ∧
    refusal? (construct { Params.default with fwSize := 0 } [] []) = some (.fwSizeIllegal 0) ∧
    refusal? (construct { Params.default with opcodeMap := { OpcodeMap.default with out := 0x01 } } [] []) =
      some .opcodeMapNotInjective := by decide

/-- 70_reset_and_hazards.md R224: the memory image comes first, then the firmware. -/
theorem test_image_split :
    (next? (constructFromImage { Params.default with memSize := 2, fwSize := 3 } [9, 0, 7, 0, 8])).map
      (fun s => (s.mem, s.fw)) = some ([(0, 9)], [(0, 7), (2, 8)]) := by decide

/-! ## Assembly notation -/

/-- 30_encoding.md R71's example, `[LDA 0, ADD 1, STA 2, HLT 0]`. -/
theorem test_assemble_example :
    (assemble OpcodeMap.default
      [⟨[], .instr (.core .lda) (.number 0)⟩, ⟨[], .instr (.core .add) (.number 1)⟩,
       ⟨[], .instr (.core .sta) (.number 2)⟩, ⟨[], .instr (.core .hlt) (.number 0)⟩]).toOption =
      some [0x05, 0x00, 0x0B, 0x01, 0x06, 0x02, 0x07, 0x00] := by decide

/-- V-AC-16: `CMP 4` assembles to the bytes of `TST 4`; a label stands for its instruction's offset (30_encoding.md R70). -/
theorem test_assemble_cmp_and_label :
    (assemble OpcodeMap.default
      [⟨[], .instr .cmp (.number 4)⟩, ⟨[], .pair 0 7⟩, ⟨["end"], .instr (.core .jmp) (.label "end")⟩]).toOption =
      some [0x08, 0x04, 0x00, 0x07, 0x0A, 0x04] := by decide

/-- 30_encoding.md R71: an operand of 256 is no byte. -/
theorem test_assemble_refuses_256 :
    assembleLines OpcodeMap.default [] [⟨[], .instr (.core .lda) (.number 256)⟩] = .error (.notAByte 256) := by decide

/-! ## One step of each instruction -/

/-- V-LG-1. -/
theorem test_and : accPcFault (engine 0x5A 1 0x0F 0x01 1) = some (0x0A, 2, .none) := by decide
/-- V-LG-4. -/
theorem test_and_fault : pcHaltedEvents (engine 5 0 0 0x01 16) = some (2, true, .addressFault 0 0x01 16, []) := by decide
/-- V-LG-6. -/
theorem test_or : accPcFault (engine 0x80 3 0x7F 0x02 3) = some (0xFF, 2, .none) := by decide
/-- V-LG-10. -/
theorem test_xor : accPcFault (engine 0x35 1 0xFF 0x03 1) = some (0xCA, 2, .none) := by decide
/-- V-LG-16: the operand is unused, 200 >= MEM_SIZE. -/
theorem test_not : accPcFault (engine 0x35 0 0 0x04 200) = some (0xCA, 2, .none) := by decide
/-- V-LS-2. -/
theorem test_lda_last_cell : accPcFault (engine 3 15 0x80 0x05 15) = some (0x80, 2, .none) := by decide
/-- V-LS-3. -/
theorem test_lda_fault : accPcFault (engine 3 0 0 0x05 16) = some (3, 2, .addressFault 0 0x05 16) := by decide
/-- V-LS-6. -/
theorem test_sta : (next? (step (engine 0xFB 2 0 0x06 2))).map State.mem = some [(2, 0xFB)] := by decide
/-- V-LS-7. -/
theorem test_sta_fault :
    (next? (step (engine 1 0 0 0x06 255))).map (fun t => (t.mem, t.fault)) = some ([], .addressFault 0 0x06 255) := by decide
/-- V-CT-2. -/
theorem test_hlt : pcHaltedEvents ({ State.reset with pc := 6 }.placePair 0x07 0) = some (8, true, .none, [.halt 8]) := by decide
/-- V-AC-13. -/
theorem test_tst_equal : accPcFault (engine 0xFF 4 0xFF 0x08 4) = some (0, 2, .none) := by decide
/-- V-AC-14. -/
theorem test_tst_unequal : accPcFault (engine 0x80 4 0x7F 0x08 4) = some (0x80, 2, .none) := by decide
/-- V-CT-10. -/
theorem test_jpz_taken : accPcFault ({ State.reset with pc := 2 }.placePair 0x09 12) = some (0, 12, .none) := by decide
/-- V-CT-12. -/
theorem test_jpz_not_taken : accPcFault (engine 0x80 0 0 0x09 12) = some (0x80, 2, .none) := by decide
/-- V-CT-7. -/
theorem test_jmp : accPcFault (engine 5 0 0 0x0A 255) = some (5, 255, .none) := by decide
/-- V-CT-8: an odd target. -/
theorem test_jmp_odd : accPcFault (engine 5 0 0 0x0A 3) = some (5, 3, .none) := by decide
/-- V-AC-5. -/
theorem test_add_wraps : accPcFault (engine 0x80 1 0xFF 0x0B 1) = some (0x7F, 2, .none) := by decide
/-- V-AC-9a. -/
theorem test_add_fault : accPcFault (engine 1 0 0 0x0B 16) = some (1, 2, .addressFault 0 0x0B 16) := by decide
/-- V-OU-2. -/
theorem test_out : pcHaltedEvents (engine 0x80 0 0 0x0C 99) = some (2, false, .none, [.out (-128)]) := by decide

/-! ## The step -/

/-- V-ST-2: the last pair that can run, at offset 253. -/
theorem test_last_pair_runs :
    accPcFault ({ State.reset with pc := 253, mem := [(0, 5)] }.placePair 0x05 0) = some (5, 255, .none) := by decide
/-- V-ST-3: at offset 254 the bounds check halts without a fetch. -/
theorem test_bounds_check :
    pcHaltedEvents { State.reset with pc := 254, mem := [(0, 5)], fw := [(254, 5)] } = some (254, true, .none, []) := by decide
/-- V-ST-6: FW_SIZE = 2. -/
theorem test_bounds_check_first_step :
    pcHaltedEvents { State.reset with params := { Params.default with fwSize := 2 } } = some (0, true, .none, []) := by decide
/-- V-ST-7: an undefined opcode. -/
theorem test_undefined_opcode : accPcFault (engine 0x33 0 1 0x80 0xEE) = some (0x33, 2, .none) := by decide
/-- V-ST-1: a halted engine. -/
theorem test_halted_step :
    next? (step { engine 1 0 0 0x07 0 with halted := true }) = some { engine 1 0 0 0x07 0 with halted := true } := by decide

/-! ## Witnesses: a state and operands that meet the hypotheses of each statement -/

theorem test_witness_DecodeInvertsEncode : OpcodeMap.default.Injective := by decide
theorem test_witness_EncodeInvertsDecode : decodePair OpcodeMap.default 0x0C 0xFF = .instr (.out 255) := by decide
theorem test_witness_UndefinedOpcodesAreTheOther244 : ({ OpcodeMap.default with out := 0x00 } : OpcodeMap).Injective := by decide
theorem test_witness_StepOnHaltedChangesNothing : ({ State.reset with halted := true } : State).halted = true := by decide

/-- The bounds check's first failing offset, 254, at FW_SIZE = 256. -/
theorem test_witness_BoundsCheckHalts :
    let s : State := { State.reset with pc := 254 }
    s.halted = false ∧ s.params.fwSize ≤ s.pc.toNat + 2 := by decide

/-- The last offset that passes the bounds check, 253. -/
theorem test_witness_StepRunsDecodedInstruction :
    ({ State.reset with pc := 253 }.placePair 0x05 0).Executes (.lda 0) := by decide
theorem test_witness_UndefinedOpcodeIsNop : State.reset.Fetches (.undefinedOpcode 0 0) := by decide

/-- An engine that has run: a cell, a program and an OUT event. -/
def ran : State :=
  { State.reset with
    acc := 5, pc := 2, mem := [(0, 5)], fw := [(0, 0x0C), (2, 0x05), (4, 0x07)], events := [.out (-128)] }

/-- `ran` after its LDA 0. -/
def ranOn : State := { ran with pc := 4 }

theorem test_witness_StepKeepsInvariant : ran.Inv ∧ step ran = .next ranOn :=
  ⟨⟨by decide, by decide, trivial, by decide, rfl⟩, rfl⟩

/-- The invariant of an engine stopped by a fault: `LDA 16` at offset 0. -/
theorem test_witness_invariant_of_faulted :
    State.Inv { State.reset with
      pc := 2, halted := true, fault := .addressFault 0 0x05 16, fw := [(0, 0x05), (1, 16)] } :=
  ⟨by decide, by decide, ⟨by decide, by decide, by decide, by decide, by decide, by decide, by decide⟩, by decide, trivial⟩

/-- The invariant of an engine stopped by the HLT at offset 0. -/
theorem test_witness_invariant_of_halted :
    State.Inv { State.reset with pc := 2, halted := true, fw := [(0, 0x07)], events := [.out 1, .halt 2] } :=
  ⟨by decide, by decide, trivial, by decide, ⟨by decide, rfl, by decide, by decide, by decide, by decide⟩⟩

theorem test_witness_FirmwareNeverChanges : Host.Core.run Sys2Proof.core 1 ran = .next ranOn := rfl

theorem test_witness_PcMoves :
    (engine 0 0 0 0x0A 255).Executes (.jmp 255) ∧ (engine 0 0 0 0x09 0).Executes (.jpz 0) ∧
    (engine 1 0 0 0x09 0).Executes (.jpz 0) ∧ ran.Executes (.lda 0) ∧
    State.reset.Fetches (.undefinedOpcode 0 0) ∧
    ((next? (step (engine 0 0 0 0x0A 255))).isSome ∧ (next? (step (engine 0 0 0 0x09 0))).isSome ∧
     (next? (step (engine 1 0 0 0x09 0))).isSome ∧ (next? (step State.reset)).isSome) := by decide
theorem test_witness_PcMoves_without_fetch :
    step { State.reset with pc := 254 } = .next { State.reset with pc := 254, halted := true } ∧
    State.reset.params.fwSize ≤ (254#8 : Byte).toNat + 2 := ⟨rfl, by decide⟩

/-- Offset 253 of 256, where the undefined opcode 0x00 stands. -/
theorem test_witness_PcNeverWraps :
    let s : State := { State.reset with pc := 253 }
    s.params.Legal ∧ s.halted = false ∧ s.pc.toNat + 2 < s.params.fwSize ∧ (next? (step s)).isSome ∧
    s.Fetches (.undefinedOpcode 0 0) := by decide
theorem test_witness_HaltTriggers : step ran = .next ranOn ∧ ran.halted = false ∧ ran.fault = .none := ⟨rfl, rfl, rfl⟩
theorem test_witness_HaltTriggers_halted :
    step { ran with halted := true } = .next { ran with halted := true } := rfl
theorem test_witness_NothingHappensAfterHlt : ranOn.Executes (.hlt 0) := by decide

/-- The first absent cell, 16 of 16, and the last byte. -/
theorem test_witness_AddressFaultStopsEngine :
    (engine 0 0 0 0x06 16).Executes (.sta 16) ∧ isMemory (.sta 16) ∧
    State.reset.params.memSize ≤ (Instr.sta 16).operand.toNat ∧ (engine 0 0 0 0x0B 255).Executes (.add 255) := by decide
theorem test_witness_FaultIsPrecise :
    (next? (step (engine 0 0 0 0x06 16))).map State.fault = some (.addressFault 0 0x06 16) ∧
    (engine 0 0 0 0x06 16).fault = .none := by decide
theorem test_witness_OnlyMemoryInstructionsRangeCheck :
    isMemory (.tst 16) ∧ State.reset.params.memSize ≤ (Instr.tst 16).operand.toNat ∧
    isMemory (.tst 15) ∧ (Instr.tst 15).operand.toNat < State.reset.params.memSize ∧ ¬ isMemory (.out 16) ∧
    State.reset.pc = 254#8 + 2#8 ∧ State.reset.Fetches (.undefinedOpcode 0 0) := by decide
theorem test_witness_MemoryChangesOnlyBySta :
    let s := engine 8 2 0 0x06 2
    s.mem.wf ∧ (next? (step s)).map (fun t => t.mem.read 2) = some 8 ∧ s.mem.read 2 = 0 := by decide
theorem test_witness_AccumulatorWriters :
    (next? (step (engine 5 4 5 0x08 4))).map State.acc = some 0 ∧ (engine 5 4 5 0x08 4).acc = 5 := by decide
theorem test_witness_EventsComeFromHltAndOut :
    (engine 2 0 0 0x0C 0).Executes (.out 0) ∧ (engine 2 0 0 0x07 0).Executes (.hlt 0) ∧ ran.Executes (.lda 0) := by decide

/-- Firmware bytes that differ at the last offset, 255 of 256, only. -/
theorem test_witness_FirmwareEndIsNeverRead :
    (∀ n : Nat, n + 1 < ran.params.fwSize → Memory.read (ran.fw.write 255 1) n = ran.fw.read n) ∧
    step ran = .next ranOn :=
  ⟨fun n h => by
    have h : n + 1 < 256 := h
    rw [Memory.read_write (by decide), if_neg (by omega)], rfl⟩

/-- Data cells that differ at the first absent index, 16 of 16, only. -/
theorem test_witness_AbsentCellsAreNeverUsed :
    ran.mem.wf ∧ Memory.wf (ran.mem.write 16 1) ∧
    (∀ n : Nat, n < ran.params.memSize → Memory.read (ran.mem.write 16 1) n = ran.mem.read n) ∧
    step ran = .next ranOn :=
  ⟨by decide, by decide, fun n h => by
    have h : n < 16 := h
    rw [Memory.read_write (by decide), if_neg (by omega)], rfl⟩
theorem test_witness_SelfJumpNeverEnds : (engine 0 0 0 0x0A 0).Executes (.jmp (engine 0 0 0 0x0A 0).pc) := by decide

/-! For a memory instruction the last cell, 15, is in range and the next index, 16, is not. -/

theorem test_witness_AndEffect : (15#8 : Byte).toNat < ran.params.memSize ∧ ran.params.memSize ≤ (16#8 : Byte).toNat ∧
    ran.pc = 0#8 + 2#8 := by decide
theorem test_witness_OrEffect : (0#8 : Byte).toNat < ran.params.memSize ∧ ran.params.memSize ≤ (255#8 : Byte).toNat ∧
    ran.pc = 0#8 + 2#8 := by decide
theorem test_witness_XorEffect : (15#8 : Byte).toNat < ran.params.memSize ∧ ran.params.memSize ≤ (16#8 : Byte).toNat ∧
    ran.pc = 0#8 + 2#8 := by decide

/-- With MEM_SIZE = 256 the last index, 255, is in range. -/
theorem test_witness_LdaEffect :
    (15#8 : Byte).toNat < ran.params.memSize ∧ ran.params.memSize ≤ (16#8 : Byte).toNat ∧
    ({ ran with params := { ran.params with memSize := 256 } } : State).params.memSize = 256 ∧ ran.pc = 0#8 + 2#8 := by decide
theorem test_witness_StaEffect :
    ran.mem.wf ∧ (15#8 : Byte).toNat < ran.params.memSize ∧ ran.params.memSize ≤ (16#8 : Byte).toNat ∧
    ran.pc = 0#8 + 2#8 := by decide

/-- Equal to the cell at 0, unequal to the cell at 15, and an absent cell. -/
theorem test_witness_TstEffect :
    (0#8 : Byte).toNat < ran.params.memSize ∧ ran.acc = ran.mem.read (0#8 : Byte).toNat ∧
    (15#8 : Byte).toNat < ran.params.memSize ∧ ran.acc ≠ ran.mem.read (15#8 : Byte).toNat ∧
    ran.params.memSize ≤ (16#8 : Byte).toNat ∧
    ran.pc = 0#8 + 2#8 := by decide

/-- A zero accumulator, and the most negative one. -/
theorem test_witness_JpzEffect : State.reset.acc = 0#8 ∧ ({ State.reset with acc := 0x80 } : State).acc ≠ 0#8 := by decide
theorem test_witness_AddEffect : (15#8 : Byte).toNat < ran.params.memSize ∧ ran.params.memSize ≤ (16#8 : Byte).toNat ∧
    ran.pc = 0#8 + 2#8 := by decide

theorem test_witness_AccumulatorInstructionsFrame :
    (Instr.and 0).mnemonic ∈ [Mnemonic.and, .or, .xor, .not, .lda, .tst, .add] ∧ (next? (exec (.and 0) ran)).isSome ∧
    (next? (exec (.and 16) ran)).isSome := by decide
theorem test_witness_StaFrame :
    ran.mem.wf ∧ (next? (exec (.sta 15) ran)).isSome ∧ (15#8 : Byte).toNat < ran.params.memSize ∧
    (next? (exec (.sta 16) ran)).isSome ∧ ran.params.memSize ≤ (16#8 : Byte).toNat ∧
    ran.pc = 0#8 + 2#8 := by decide
theorem test_witness_ControlAndOutputFrame :
    (Instr.jmp 0).mnemonic ∈ [Mnemonic.hlt, .jpz, .jmp, .out] ∧ (next? (exec (.jmp 0) ran)).isSome ∧
    (next? (exec (.hlt 0) ran)).isSome ∧ (next? (exec (.jpz 0) ran)).isSome ∧ (next? (exec (.out 0) ran)).isSome := by decide
theorem test_witness_StaLdaRoundTrip : ran.mem.wf ∧ (15#8 : Byte).toNat < ran.params.memSize := by decide
theorem test_witness_TstThenJpz : (15#8 : Byte).toNat < ran.params.memSize := by decide
theorem test_witness_AddTwiceWraps :
    let s : State := { State.reset with acc := 120, mem := [(1, 10)] }
    (1#8 : Byte).toNat < s.params.memSize ∧ s.acc = 120#8 ∧ s.mem.read (1#8 : Byte).toNat = 10#8 := by decide

theorem test_witness_ConstructionSetsState :
    let p : Params := { Params.default with memSize := 1, fwSize := 2 }
    p.Legal ∧ ([1, 2, 3] : List Byte).length = p.memSize + p.fwSize := by decide
theorem test_witness_ConstructionRefusesOtherLengths :
    let p : Params := { Params.default with memSize := 1, fwSize := 2 }
    p.Legal ∧ ([1] : List Byte).length = p.memSize ∧ ([2, 3] : List Byte).length = p.fwSize ∧
    ([2] : List Byte).length ≠ p.fwSize ∧ ([] : List Byte).length ≠ p.memSize := by decide
theorem test_witness_ConstructedEngineHasInvariant :
    (next? (construct { Params.default with memSize := 1, fwSize := 2 } [1] [2, 3])).isSome := by decide

/-- A bounds-check halt, an HLT, a fault, and a step that goes on, each from a state with the invariant. -/
theorem test_witness_RunEndsAreTold :
    State.Inv { ran with pc := 254 } ∧ (next? (step { ran with pc := 254 })).isSome ∧
    ran.params.fwSize ≤ ({ ran with pc := 254 } : State).pc.toNat + 2 ∧
    ranOn.Inv ∧ (next? (step ranOn)).isSome ∧ ranOn.Executes (.hlt 0) ∧
    ran.Inv ∧ step ran = .next ranOn ∧ ranOn.halted = false :=
  ⟨⟨by decide, by decide, trivial, by decide, rfl⟩, by decide, by decide,
   ⟨by decide, by decide, trivial, by decide, rfl⟩, by decide, by decide,
   ⟨by decide, by decide, trivial, by decide, rfl⟩, rfl, rfl⟩
theorem test_witness_RunEndsAreTold_fault :
    (engine 0 0 0 0x05 16).Inv ∧ (next? (step (engine 0 0 0 0x05 16))).isSome ∧
    (engine 0 0 0 0x05 16).Executes (.lda 16) ∧ isMemory (.lda 16) ∧
    (engine 0 0 0 0x05 16).params.memSize ≤ (Instr.lda 16).operand.toNat :=
  ⟨⟨by decide, by decide, trivial, by decide, trivial⟩, by decide, by decide, by decide, by decide⟩
theorem test_witness_PortsShowMemoryAndEvents :
    ran.halted = false ∧ ({ ran with halted := true } : State).halted = true ∧ step ran = .next ranOn := ⟨rfl, rfl, rfl⟩

end Sys2Proof.Tests
end

/-! # Every step keeps the invariant

A running engine with the invariant is `Clean`: no fault recorded and OUT events only. What an
instruction does to a clean state is one of four effects, and each gives the invariant back. -/

namespace Sys2Proof.Machine

/-! ## What one instruction can do -/

/-- The memory opcodes are the map's bytes at the mnemonics whose operand is a data address (00_scope.md R18). -/
theorem memoryOpcodes_eq (map : OpcodeMap) :
    map.memoryOpcodes = (Mnemonic.all.filter fun m => operandUse m = .dataAddress).map map.byte := rfl

theorem byte_mem_memoryOpcodes (map : OpcodeMap) {m : Mnemonic} (h : operandUse m = .dataAddress) :
    map.byte m ∈ map.memoryOpcodes := by
  rw [memoryOpcodes_eq]
  exact List.mem_map_of_mem (List.mem_filter.2 ⟨m.mem_all, by simpa using h⟩)

/-- `t` is `s` after work on the accumulator, `pc` and at most one data cell that exists. -/
structure State.Computes (s t : State) : Prop where
  params : t.params = s.params
  halted : t.halted = s.halted
  fault : t.fault = s.fault
  fw : t.fw = s.fw
  events : t.events = s.events
  mem : t.mem = s.mem ∨ ∃ a v, a < s.params.memSize ∧ t.mem = s.mem.write a v

theorem State.Computes.refl (s : State) : s.Computes s := ⟨rfl, rfl, rfl, rfl, rfl, .inl rfl⟩

theorem State.Computes.setAcc (s : State) (v : Byte) : s.Computes (s.setAcc v) :=
  ⟨rfl, rfl, rfl, rfl, rfl, .inl rfl⟩

theorem State.Computes.setPc (s : State) (p : Byte) : s.Computes (s.setPc p) :=
  ⟨rfl, rfl, rfl, rfl, rfl, .inl rfl⟩

theorem State.Computes.write {s : State} {a : Nat} (v : Byte) (h : a < s.params.memSize) :
    s.Computes { s with mem := s.mem.write a v } :=
  ⟨rfl, rfl, rfl, rfl, rfl, .inr ⟨a, v, h, rfl⟩⟩

/-- The four effects an instruction can have on the state its fetches left (40_step_cycle.md R84). -/
inductive ExecEffect (i : Instr) (s : State) : State → Prop where
  | computes {t : State} (h : s.Computes t) : ExecEffect i s t
  | halts (h : i.mnemonic = .hlt) : ExecEffect i s (s.halt.emit (.halt s.pc.toNat))
  | outputs (h : i.mnemonic = .out) : ExecEffect i s (s.emit (.out s.acc.toInt))
  | faults (hm : isMemory i) (h : s.params.memSize ≤ i.operand.toNat) :
    ExecEffect i s (s.addressFaultOf i.mnemonic i.operand)

/-- A memory instruction computes where its cell exists and faults elsewhere (60_exceptions.md R201). -/
theorem ExecEffect.of_range_check {i : Instr} {s t : State} (hm : isMemory i)
    (h : i.operand.toNat < s.params.memSize → s.Computes t) :
    ExecEffect i s (if i.operand.toNat < s.params.memSize then t else s.addressFaultOf i.mnemonic i.operand) := by
  by_cases ha : i.operand.toNat < s.params.memSize
  · rw [if_pos ha]; exact .computes (h ha)
  · rw [if_neg ha]; exact .faults hm (not_lt.1 ha)

theorem exec_effect {i : Instr} {s t : State} (h : exec i s = .next t) : ExecEffect i s t := by
  rw [exec_eq] at h
  cases h
  cases i with
  | and a => exact .of_range_check (i := .and a) rfl fun _ => .setAcc _ _
  | or a => exact .of_range_check (i := .or a) rfl fun _ => .setAcc _ _
  | xor a => exact .of_range_check (i := .xor a) rfl fun _ => .setAcc _ _
  | not a => exact .computes (.setAcc _ _)
  | lda a => exact .of_range_check (i := .lda a) rfl fun _ => .setAcc _ _
  | sta a => exact .of_range_check (i := .sta a) rfl fun ha => .write _ ha
  | hlt a => exact .halts rfl
  | tst a => exact .of_range_check (i := .tst a) rfl fun _ => .setAcc _ _
  | jpz a =>
    by_cases hz : s.acc = 0#8
    · simp only [hz, if_true]; exact .computes (.setPc _ _)
    · simp only [hz, if_false]; exact .computes (.refl _)
  | jmp a => exact .computes (.setPc _ _)
  | add a => exact .of_range_check (i := .add a) rfl fun _ => .setAcc _ _
  | out a => exact .outputs rfl

/-! ## Clean states -/

/-- The part of the invariant that holds as long as the engine runs: no fault and no Halt event yet. -/
structure State.Clean (s : State) : Prop where
  legal : s.params.Legal
  stores : s.StoresOk
  fault : s.fault = .none
  events : ∀ e ∈ s.events, e.isOut = true

/-- A fault record and a Halt event each tell of a halted engine, so a running one has neither. -/
theorem State.Inv.clean {s : State} (h : s.Inv) (hr : s.halted = false) : s.Clean := by
  obtain ⟨hlegal, hstores, hfault, hinit, hlast⟩ := h
  refine ⟨hlegal, hstores, ?_, fun e he => ?_⟩
  · cases hf : s.fault with
    | none => rfl
    | addressFault ia op a => simp [State.FaultOk, hf, hr] at hfault
  · rcases List.eq_nil_or_concat' s.events with hnil | ⟨es, last, hcat⟩
    · simp [hnil] at he
    · rw [hcat, List.dropLast_concat] at hinit
      rw [hcat, List.getLast?_concat] at hlast
      rw [hcat, List.mem_append, List.mem_singleton] at he
      rcases he with he | rfl
      · exact hinit e he
      · cases e with
        | out v => exact hlast
        | halt o => simp [hr] at hlast

theorem State.Clean.faultOk {s : State} (h : s.Clean) : s.FaultOk := by
  simp [State.FaultOk, h.fault]

/-- A stream of OUT events only is well formed, whatever the rest of the state. -/
theorem State.eventsOk_of_isOut {s : State} (h : ∀ e ∈ s.events, e.isOut = true) : s.EventsOk := by
  refine ⟨fun e he => h e (List.mem_of_mem_dropLast he), ?_⟩
  split
  · trivial
  · next v hv => exact h _ (List.mem_of_getLast? hv)
  · next o ho => exact absurd (h _ (List.mem_of_getLast? ho)) (by simp [Event.isOut])

theorem State.Clean.inv {s : State} (h : s.Clean) : s.Inv :=
  ⟨h.legal, h.stores, h.faultOk, State.eventsOk_of_isOut h.events⟩

/-- A halt by the bounds check leaves a clean state (40_step_cycle.md R81). -/
theorem State.Clean.halt {s : State} (h : s.Clean) : s.halt.Clean :=
  ⟨h.legal, h.stores, h.fault, h.events⟩

theorem State.Clean.setPc {s : State} (h : s.Clean) (p : Byte) : (s.setPc p).Clean :=
  ⟨h.legal, h.stores, h.fault, h.events⟩

/-- A store inside the memory keeps it canonical and within MEM_SIZE (20_memory.md R48). -/
theorem State.Computes.storesOk {s t : State} (hc : s.Computes t) (h : s.StoresOk) : t.StoresOk := by
  obtain ⟨hwf, hbelow, hfw, hfwBelow⟩ := h
  rw [State.StoresOk, hc.params, hc.fw]
  rcases hc.mem with hmem | ⟨a, v, ha, hmem⟩ <;> rw [hmem]
  · exact ⟨hwf, hbelow, hfw, hfwBelow⟩
  · exact ⟨Memory.write_wf hwf a v, Memory.write_below hbelow ha v, hfw, hfwBelow⟩

theorem State.Clean.computes {s t : State} (h : s.Clean) (hc : s.Computes t) : t.Clean where
  legal := hc.params ▸ h.legal
  stores := hc.storesOk h.stores
  fault := hc.fault.trans h.fault
  events := hc.events ▸ h.events

/-- A signed byte is a value an OUT event may carry (45_output.md R180). -/
theorem isOut_out_toInt (b : Byte) : (Event.out b.toInt).isOut = true := by
  have hlo := BitVec.le_toInt b
  have hhi := BitVec.toInt_lt (x := b)
  simp only [Event.isOut, Bool.and_eq_true, decide_eq_true_eq]
  omega

theorem State.Clean.emit_out {s : State} (h : s.Clean) (b : Byte) : (s.emit (.out b.toInt)).Clean :=
  ⟨h.legal, h.stores, h.fault, fun e he => by
    rcases List.mem_append.1 he with he | he
    · exact h.events e he
    · rw [List.mem_singleton.1 he]; exact isOut_out_toInt b⟩

/-! ## The two effects that halt, on the state the fetches of a pair left -/

/-- The Halt event tells of the HLT its step fetched (43_control.md R140, R141). -/
theorem State.Clean.inv_emit_halt {s : State} (h : s.Clean) (hge : 2 ≤ s.pc.toNat)
    (hlt : s.pc.toNat < s.params.fwSize) (hop : s.fw.read (s.pc.toNat - 2) = s.params.opcodeMap.hlt) :
    (s.halt.emit (.halt s.pc.toNat)).Inv := by
  refine ⟨h.legal, h.stores, h.halt.faultOk, ?_⟩
  rw [State.EventsOk, State.emit_events, List.dropLast_concat, List.getLast?_concat]
  exact ⟨h.events, rfl, h.fault, rfl, hge, hlt, hop⟩

/-- The fault record is true of the pair its step fetched (60_exceptions.md R202). -/
theorem State.Clean.inv_addressFaultOf {s : State} (h : s.Clean) {m : Mnemonic} {a : Byte}
    (hpc : s.pc.toNat = s.instrAddress.toNat + 2) (hlt : s.pc.toNat < s.params.fwSize)
    (hop : s.fw.read s.instrAddress.toNat = s.params.opcodeMap.byte m)
    (ha : s.fw.read (s.instrAddress.toNat + 1) = a)
    (hm : operandUse m = .dataAddress) (hrange : s.params.memSize ≤ a.toNat) : (s.addressFaultOf m a).Inv :=
  ⟨h.legal, h.stores, ⟨rfl, hpc, hlt, hop, ha, byte_mem_memoryOpcodes _ hm, hrange⟩,
    State.eventsOk_of_isOut h.events⟩

/-- An instruction executed where its pair was fetched leaves a clean state with the invariant. -/
theorem State.Clean.inv_exec {s t : State} {i : Instr} (h : s.Clean) (hb : s.pairInBounds)
    (hd : decodePair s.params.opcodeMap (s.fw.read s.pc.toNat) (s.fw.read (s.pc + 1#8).toNat) = .instr i)
    (he : exec i (s.setPc (s.pc + 2#8)) = .next t) : t.Inv := by
  have hclean := h.setPc (s.pc + 2#8)
  obtain ⟨-, ⟨-, hfwSize⟩, -⟩ := h.legal
  obtain ⟨hpc2, hpc1⟩ := toNat_pc_add_two hfwSize hb
  obtain ⟨hop, ha⟩ := decodePair_instr hd
  have hlt : (s.pc + 2#8).toNat < s.params.fwSize := hpc2 ▸ hb
  cases exec_effect he with
  | computes hc => exact (hclean.computes hc).inv
  | halts hm =>
    refine hclean.inv_emit_halt (hpc2 ▸ Nat.le_add_left 2 _) hlt ?_
    simp only [State.setPc_pc, State.setPc_fw, State.setPc_params, hpc2, Nat.add_sub_cancel, ← hop, hm]
    rfl
  | outputs => exact (hclean.emit_out _).inv
  | faults hm hrange =>
    have hia : (s.setPc (s.pc + 2#8)).instrAddress = s.pc := by
      rw [State.instrAddress_eq, State.setPc_pc, BitVec.add_sub_cancel]
    refine hclean.inv_addressFaultOf ?_ hlt ?_ ?_ hm hrange <;> rw [hia]
    · exact hpc2
    · exact hop.symm
    · rw [ha, hpc1]; rfl

/-- Settles O11: a halted engine stays as it is, a running one is clean, and each way its step can end gives the invariant
back. -/
theorem stepKeepsInvariant : Obligations.StepKeepsInvariant := by
  intro s t hinv hstep
  rcases step_next_cases hstep with
    ⟨-, rfl⟩ | ⟨hr, -, rfl⟩ | ⟨hr, -, -, rfl⟩ | ⟨hr, hb, i, hd, he⟩
  · exact hinv
  · exact (hinv.clean hr).halt.inv
  · exact ((hinv.clean hr).setPc _).inv
  · exact (hinv.clean hr).inv_exec hb hd he

end Sys2Proof.Machine

/-! # The state under one step

The rules for one step and one instruction that the statements about `pc`, the halted flag, the fault record, the
firmware's end, a run's end and the ports share, then those statements. -/

namespace Sys2Proof.Machine

/-! ## One rule for each way a step can go -/

theorem step_of_halted {s : State} (h : s.halted = true) : step s = .next s := by
  rw [step_eq, if_pos h]

/-- The bounds check halts a running engine (40_step_cycle.md R81). -/
theorem step_of_outOfBounds {s : State} (hr : s.halted = false) (hb : ¬ s.pairInBounds) :
    step s = .next s.halt := by
  rw [step_eq, if_neg (by simp [hr]), if_neg hb]

theorem State.Executes.step_eq_exec {s : State} {i : Instr} (h : s.Executes i) :
    step s = exec i (s.setPc (s.pc + 2#8)) := by
  obtain ⟨hr, hb, hd⟩ := h
  rw [step_eq, if_neg (by simp [hr]), if_pos hb, hd]

theorem State.Fetches.step_undefinedOpcode {s : State} {op a : Byte} (h : s.Fetches (.undefinedOpcode op a)) :
    step s = .next (s.setPc (s.pc + 2#8)) := by
  obtain ⟨hr, hb, hd⟩ := h
  rw [step_eq, if_neg (by simp [hr]), if_pos hb, hd]

theorem step_unique {s t u : State} (ht : step s = .next t) (hu : step s = .next u) : t = u :=
  Host.Outcome.next.inj (ht.symm.trans hu)

/-- The firmware holds an executing instruction's opcode byte at `pc` and its operand behind it (30_encoding.md R60). -/
theorem State.Executes.bytes {s : State} {i : Instr} (h : s.Executes i) :
    s.params.opcodeMap.byte i.mnemonic = s.fw.read s.pc.toNat ∧ i.operand = s.fw.read (s.pc + 1#8).toNat := by
  obtain ⟨-, -, hd⟩ := h
  exact decodePair_instr hd

/-! ## One rule for each piece of state an instruction can change -/

/-- Only the jumps replace `pc` (10_state.md R24). -/
theorem exec_pc_of_not_jump {i : Instr} {s t : State} (h : exec i s = .next t)
    (hi : ∀ a : Byte, i ≠ .jmp a ∧ i ≠ .jpz a) : t.pc = s.pc := by
  rw [exec_eq] at h
  cases h
  cases i with
  | jmp a => exact absurd rfl (hi a).1
  | jpz a => exact absurd rfl (hi a).2
  | not a | hlt a | out a => rfl
  | and a | or a | xor a | lda a | sta a | tst a | add a => dsimp only; split <;> rfl

/-- A memory instruction without a cell takes the addressing fault (60_exceptions.md R201). -/
theorem exec_of_outOfRange {i : Instr} {s : State} (hm : isMemory i) (ha : s.params.memSize ≤ i.operand.toNat) :
    exec i s = .next (s.addressFaultOf i.mnemonic i.operand) := by
  rw [exec_eq]
  cases i with
  | not a | hlt a | jpz a | jmp a | out a => cases hm
  | and a | or a | xor a | lda a | sta a | tst a | add a => exact congrArg _ (if_neg (not_lt.2 ha))

/-- The step of a memory instruction without a cell, with the record its fetches give (60_exceptions.md R202). -/
theorem State.Executes.step_of_outOfRange {s : State} {i : Instr} (h : s.Executes i) (hm : isMemory i)
    (ha : s.params.memSize ≤ i.operand.toNat) :
    step s = .next { s with
      pc := s.pc + 2#8
      halted := true
      fault := .addressFault s.pc (s.fw.read s.pc.toNat) i.operand } := by
  obtain ⟨hop, -⟩ := h.bytes
  rw [h.step_eq_exec, exec_of_outOfRange (s := s.setPc (s.pc + 2#8)) hm ha, State.addressFaultOf_eq,
    State.setPc_pc, BitVec.add_sub_cancel, State.setPc_params, hop]
  rfl

/-- An instruction that leaves a running engine halted is HLT or has no cell (10_state.md R29). -/
theorem exec_halts {i : Instr} {s t : State} (h : exec i s = .next t) (hr : s.halted = false)
    (ht : t.halted = true) : i.mnemonic = .hlt ∨ isMemory i ∧ s.params.memSize ≤ i.operand.toNat := by
  cases exec_effect h with
  | computes hc => exact absurd (hc.halted.symm.trans ht) (by simp [hr])
  | halts hm => exact .inl hm
  | outputs => exact absurd ht (by simp [hr])
  | faults hm ha => exact .inr ⟨hm, ha⟩

/-- An instruction that changes the fault record has no cell (60_exceptions.md R201). -/
theorem exec_faults {i : Instr} {s t : State} (h : exec i s = .next t) (ht : t.fault ≠ s.fault) :
    isMemory i ∧ s.params.memSize ≤ i.operand.toNat := by
  cases exec_effect h with
  | computes hc => exact absurd hc.fault ht
  | halts => exact absurd rfl ht
  | outputs => exact absurd rfl ht
  | faults hm ha => exact ⟨hm, ha⟩

/-- A step appends at most one event (45_output.md R181). -/
theorem step_events {s t : State} (h : step s = .next t) :
    t.events = s.events ∨ ∃ e : Event, t.events = s.events ++ [e] := by
  rcases step_next_cases h with ⟨-, rfl⟩ | ⟨-, -, rfl⟩ | ⟨-, -, -, rfl⟩ | ⟨-, -, i, -, he⟩
  · exact .inl rfl
  · exact .inl rfl
  · exact .inl rfl
  · cases exec_effect he with
    | computes hc => exact .inl hc.events
    | halts => exact .inr ⟨_, rfl⟩
    | outputs => exact .inr ⟨_, rfl⟩
    | faults => exact .inl rfl

theorem eq_hlt_of_mnemonic {i : Instr} (h : i.mnemonic = .hlt) : i = .hlt i.operand := by
  conv_lhs => rw [← i.instr_mnemonic, h]
  rfl

/-! ## The program counter -/

/-- Settles O14: each way a step can go has its rule, and only the jumps touch the `pc` that the fetches left. -/
theorem pcMoves : Obligations.PcMoves := by
  intro s t hstep
  refine ⟨fun a hx => ?_, fun a hx => ?_, fun i hx hi => ?_, fun op a hx => ?_, fun hstay => ?_⟩
  · rw [step_unique hstep hx.step_eq_exec]; rfl
  · rw [step_unique hstep (hx.step_eq_exec.trans (exec_eq _ _))]
    exact apply_ite State.pc _ _ _
  · rw [hx.step_eq_exec] at hstep
    exact exec_pc_of_not_jump hstep hi
  · rw [step_unique hstep hx.step_undefinedOpcode]; rfl
  · by_cases hr : s.halted = true
    · rw [step_unique hstep (step_of_halted hr)]
    · have hb : ¬ s.pairInBounds := not_lt.2 (hstay.resolve_left hr)
      rw [step_unique hstep (step_of_outOfBounds (by simpa using hr) hb)]; rfl

/-- Settles O15: with FW_SIZE at most 256 the bounds check leaves room for both increments. -/
theorem pcNeverWraps : Obligations.PcNeverWraps := by
  rintro s t ⟨-, ⟨-, hfwSize⟩, -⟩ hr hb hstep
  obtain ⟨hpc2, hpc1⟩ := toNat_pc_add_two hfwSize hb
  obtain ⟨-, -, hinstr, hundefined, -⟩ := pcMoves s t hstep
  refine ⟨hpc1, fun hnojump => ?_⟩
  suffices hpc : t.pc = s.pc + 2#8 by rw [hpc, hpc2]
  cases hd : decodePair s.params.opcodeMap (s.fw.read s.pc.toNat) (s.fw.read (s.pc + 1#8).toNat) with
  | instr i =>
    refine hinstr i ⟨hr, hb, hd⟩ fun a => ⟨?_, ?_⟩ <;> rintro rfl
    · exact (hnojump a).1 ⟨hr, hb, hd⟩
    · exact (hnojump a).2 ⟨hr, hb, hd⟩
  | undefinedOpcode op a => exact hundefined op a ⟨hr, hb, hd⟩

/-! ## The fault record and the halted flag -/

/-- Settles O19: of the ways a step can go, only an instruction without its cell touches the record. -/
theorem faultIsPrecise : Obligations.FaultIsPrecise := by
  intro s t hstep hfault
  rcases step_next_cases hstep with ⟨-, rfl⟩ | ⟨-, -, rfl⟩ | ⟨-, -, -, rfl⟩ | ⟨hr, hb, i, hd, he⟩
  · exact absurd rfl hfault
  · exact absurd rfl hfault
  · exact absurd rfl hfault
  · have hx : s.Executes i := ⟨hr, hb, hd⟩
    obtain ⟨hm, ha⟩ := exec_faults he hfault
    exact ⟨i, hx, hm, ha, step_unique hstep (hx.step_of_outOfRange hm ha)⟩

/-- What a step that halts a running engine did (10_state.md R29). -/
theorem step_halts {s t : State} (hstep : step s = .next t) (hr : s.halted = false) (ht : t.halted = true) :
    s.params.fwSize ≤ s.pc.toNat + 2 ∨ (∃ a : Byte, s.Executes (.hlt a)) ∨
      ∃ i : Instr, s.Executes i ∧ isMemory i ∧ s.params.memSize ≤ i.operand.toNat := by
  rcases step_next_cases hstep with ⟨hh, -⟩ | ⟨-, hb, -⟩ | ⟨-, -, -, rfl⟩ | ⟨-, hb, i, hd, he⟩
  · exact absurd hh (by simp [hr])
  · exact .inl (not_lt.1 hb)
  · exact absurd ht (by simp [hr])
  · rcases exec_halts he hr ht with hm | ⟨hm, ha⟩
    · rw [eq_hlt_of_mnemonic hm] at hd
      exact .inr (.inl ⟨_, hr, hb, hd⟩)
    · exact .inr (.inr ⟨i, ⟨hr, hb, hd⟩, hm, ha⟩)

/-- Settles O16: each trigger's own rule shows that it halts, and `step_halts` that nothing else does. -/
theorem haltTriggers : Obligations.HaltTriggers := by
  refine ⟨rfl, fun s t hstep =>
    ⟨fun hh => ?_, fun hr => ⟨step_halts hstep hr, ?_⟩, fun _ hnone => ⟨fun hf => ?_, ?_⟩⟩⟩
  · rwa [step_unique hstep (step_of_halted hh)]
  · rintro (hb | ⟨a, hx⟩ | ⟨i, hx, hm, ha⟩)
    · rw [step_unique hstep (step_of_outOfBounds hr (not_lt.2 hb))]; rfl
    · rw [step_unique hstep hx.step_eq_exec]; rfl
    · rw [step_unique hstep (hx.step_of_outOfRange hm ha)]
  · obtain ⟨i, hx, hm, ha, -⟩ := faultIsPrecise s t hstep (hnone ▸ hf)
    exact ⟨i, hx, hm, ha⟩
  · rintro ⟨i, hx, hm, ha⟩
    rw [step_unique hstep (hx.step_of_outOfRange hm ha)]
    exact nofun

/-! ## The firmware's end -/

/-- The same engine with another firmware. -/
def State.setFw (s : State) (g : Memory) : State := { s with fw := g }

theorem State.setFw_ite (c : Prop) [Decidable c] (s t : State) (g : Memory) :
    (if c then s else t).setFw g = if c then s.setFw g else t.setFw g :=
  apply_ite (State.setFw · g) c s t

/-- No instruction reads or writes the firmware: its meaning is the same over any other (20_memory.md R54). -/
theorem exec_setFw {i : Instr} {s t : State} (g : Memory) (h : exec i s = .next t) :
    exec i (s.setFw g) = .next (t.setFw g) := by
  rw [exec_eq] at h ⊢
  cases h
  cases i with
  | not a | hlt a | jmp a | out a => rfl
  | and a | or a | xor a | lda a | sta a | tst a | add a | jpz a => rw [State.setFw_ite]; rfl

/-- A pair is fetched from two offsets below FW_SIZE - 1, so another firmware with the same bytes there gives the same pair
(40_step_cycle.md R81 to R83). -/
theorem State.Fetches.setFw {s : State} {d : Decoded} {g : Memory} (h : s.Fetches d)
    (hg : ∀ n : Nat, n + 1 < s.params.fwSize → g.read n = s.fw.read n) : (s.setFw g).Fetches d := by
  obtain ⟨hr, hb, hd⟩ := h
  have hpc1 : (s.pc + 1#8).toNat ≤ s.pc.toNat + 1 := by
    rw [BitVec.toNat_add]; exact Nat.mod_le _ _
  rw [← hg s.pc.toNat (by omega), ← hg (s.pc + 1#8).toNat (by omega)] at hd
  exact ⟨hr, hb, hd⟩

/-- Settles O24: both engines go the same way, and where they fetch, they fetch the same pair. -/
theorem firmwareEndIsNeverRead : Obligations.FirmwareEndIsNeverRead := by
  intro s t g hg hstep
  change step (s.setFw g) = .next (t.setFw g)
  rcases step_next_cases hstep with ⟨hh, rfl⟩ | ⟨hr, hb, rfl⟩ | ⟨hr, hb, ⟨op, a, hd⟩, rfl⟩ | ⟨hr, hb, i, hd, he⟩
  · exact step_of_halted hh
  · exact step_of_outOfBounds hr hb
  · have hx : s.Fetches (.undefinedOpcode op a) := ⟨hr, hb, hd⟩
    exact (hx.setFw hg).step_undefinedOpcode
  · have hx : (s.setFw g).Executes i := State.Fetches.setFw ⟨hr, hb, hd⟩ hg
    exact hx.step_eq_exec.trans (exec_setFw g he)

/-! ## How a run ended -/

theorem runEnd_of_running {s : State} (h : s.halted = false) : runEnd s = none := by
  simp [runEnd, h]

theorem runEnd_of_addressFault {s : State} {ia op a : Byte} (hh : s.halted = true)
    (hf : s.fault = .addressFault ia op a) : runEnd s = some (.addressFault ia op a) := by
  simp [runEnd, hh, hf]

theorem runEnd_of_haltEvent {s : State} {o : Nat} (hh : s.halted = true) (hf : s.fault = .none)
    (he : s.events.getLast? = some (.halt o)) : runEnd s = some (.hlt o) := by
  simp [runEnd, hh, hf, he]

/-- A stream of OUT events only tells that no HLT halted the engine (40_step_cycle.md R90). -/
theorem State.Clean.runEnd_of_halted {s : State} (h : s.Clean) (hh : s.halted = true) :
    runEnd s = some .boundsCheck := by
  simp only [runEnd, hh, h.fault, if_true]
  split
  · next o ho => exact absurd (h.events _ (List.mem_of_getLast? ho)) (by simp [Event.isOut])
  · rfl

/-- Settles O50: a running engine with the invariant is clean, so what tells the end is what the halting step wrote. -/
theorem runEndsAreTold : Obligations.RunEndsAreTold := by
  intro s t hinv hr hstep
  have hclean := hinv.clean hr
  refine ⟨fun hb => ?_, fun a hx => ?_, fun i hx hm ha => ?_, runEnd_of_running⟩
  · rw [step_unique hstep (step_of_outOfBounds hr (not_lt.2 hb))]
    exact hclean.halt.runEnd_of_halted rfl
  · have ⟨_, hb, _⟩ := hx
    obtain ⟨-, ⟨-, hfwSize⟩, -⟩ := hclean.legal
    obtain ⟨hpc2, -⟩ := toNat_pc_add_two hfwSize hb
    rw [step_unique hstep hx.step_eq_exec, ← hpc2]
    exact runEnd_of_haltEvent rfl hclean.fault List.getLast?_concat
  · rw [step_unique hstep (hx.step_of_outOfRange hm ha)]
    exact runEnd_of_addressFault rfl rfl

/-! ## The ports -/

theorem Memory.getElem?_toBytes (m : Memory) {n k : Nat} (h : k < n) : (m.toBytes n)[k]? = some (m.read k) := by
  simp [Memory.toBytes, h]

/-- What `event_out` shows are the events behind the old ones (10_state.md R34). -/
theorem eventOut_of_append {s t : State} {es : List Event} (h : t.events = s.events ++ es) : eventOut s t = es := by
  rw [eventOut, h, List.drop_left]

/-- Settles O51: `mem_out` is gated by the halted flag, and a step appends at most one event. -/
theorem portsShowMemoryAndEvents : Obligations.PortsShowMemoryAndEvents := by
  refine ⟨fun s hr => ?_, fun s hh => ?_, fun s t hstep => ?_⟩
  · simp [State.memOut, hr]
  · exact ⟨s.mem.toBytes s.params.memSize, if_pos hh, Memory.length_toBytes _ _, fun n => Memory.getElem?_toBytes _⟩
  · rcases step_events hstep with hes | ⟨e, hes⟩
    · rw [eventOut_of_append (es := []) (by simpa using hes)]
      exact ⟨by simpa using hes, Nat.zero_le 1⟩
    · rw [eventOut_of_append hes]
      exact ⟨hes, Nat.le_refl 1⟩

end Sys2Proof.Machine

/-! # The data memory and the firmware

No instruction touches the firmware, and the only one that touches the data memory is STA, at a cell that exists. -/

namespace Sys2Proof.Machine

/-! ## The firmware -/

theorem exec_keeps_fw_params {i : Instr} {s t : State} (h : exec i s = .next t) :
    t.fw = s.fw ∧ t.params = s.params := by
  cases exec_effect h with
  | computes hc => exact ⟨hc.fw, hc.params⟩
  | halts | outputs | faults => exact ⟨rfl, rfl⟩

theorem step_keeps_fw_params {s t : State} (h : step s = .next t) : t.fw = s.fw ∧ t.params = s.params := by
  rcases step_next_cases h with ⟨-, rfl⟩ | ⟨-, -, rfl⟩ | ⟨-, -, -, rfl⟩ | ⟨-, -, i, -, he⟩
  · exact ⟨rfl, rfl⟩
  · exact ⟨rfl, rfl⟩
  · exact ⟨rfl, rfl⟩
  · obtain ⟨hfw, hparams⟩ := exec_keeps_fw_params he
    exact ⟨hfw, hparams⟩

/-- A run that answers a state after `k + 1` steps is one step, then a run of `k`. -/
theorem core_run_succ_next {M : Host.Core} {k : Nat} {s t : M.State} (h : M.run (k + 1) s = .next t) :
    ∃ u, M.step s = .next u ∧ M.run k u = .next t := by
  rw [Host.Core.run] at h
  split at h
  · next u hu => exact ⟨u, hu, h⟩
  · cases h
  · cases h

/-- Settles O13, by induction on the number of steps. -/
theorem firmwareNeverChanges : Obligations.FirmwareNeverChanges := by
  intro k
  induction k with
  | zero => rintro s t ⟨⟩; exact ⟨rfl, rfl⟩
  | succ k ih =>
    intro s t hrun
    obtain ⟨u, hstep, hrest⟩ := core_run_succ_next hrun
    obtain ⟨hfw, hparams⟩ := step_keeps_fw_params hstep
    obtain ⟨hfw', hparams'⟩ := ih u t hrest
    exact ⟨hfw'.trans hfw, hparams'.trans hparams⟩

/-! ## The data memory -/

/-- The same engine with another data memory. -/
def State.setMem (s : State) (g : Memory) : State := { s with mem := g }

@[simp] theorem State.setMem_mem (s : State) (g : Memory) : (s.setMem g).mem = g := rfl

theorem State.setMem_ite (c : Prop) [Decidable c] (s t : State) (g : Memory) :
    (if c then s else t).setMem g = if c then s.setMem g else t.setMem g :=
  apply_ite (State.setMem · g) c s t

/-- What the instruction leaves of a data memory `m` in the place of `s`'s own: STA stores the accumulator in a cell that
exists, and no other instruction stores (20_memory.md R47). -/
def State.memAfter (s : State) (m : Memory) : Instr → Memory
  | .sta a => if a.toNat < s.params.memSize then m.write a.toNat s.acc else m
  | _ => m

/-- An instruction means the same over any data memory with the same cells (20_memory.md R48). -/
theorem exec_setMem {i : Instr} {s t : State} {g : Memory}
    (hg : ∀ n : Nat, n < s.params.memSize → g.read n = s.mem.read n) (h : exec i s = .next t) :
    exec i (s.setMem g) = .next (t.setMem (s.memAfter g i)) := by
  rw [exec_eq] at h ⊢
  cases h
  cases i with
  | not a | hlt a | jmp a | out a => rfl
  | jpz a => rw [State.setMem_ite]; rfl
  | sta a =>
    rw [State.setMem_ite]
    refine congrArg _ (ite_congr rfl (fun ha => ?_) fun ha => ?_)
    · rw [State.memAfter, if_pos ha]; rfl
    · rw [State.memAfter, if_neg ha]; rfl
  | and a | or a | xor a | lda a | tst a | add a =>
    rw [State.setMem_ite]
    refine congrArg _ (ite_congr rfl (fun ha => ?_) fun _ => rfl)
    rw [State.setMem_mem, hg _ ha]; rfl

/-- The same for the whole step of an instruction: the fetches do not look at the data memory. -/
theorem State.Executes.step_setMem {s t : State} {i : Instr} {g : Memory} (hx : s.Executes i)
    (hg : ∀ n : Nat, n < s.params.memSize → g.read n = s.mem.read n) (h : step s = .next t) :
    step (s.setMem g) = .next (t.setMem (s.memAfter g i)) := by
  have hgx : (s.setMem g).Executes i := hx
  rw [hx.step_eq_exec] at h
  exact hgx.step_eq_exec.trans (exec_setMem (s := s.setPc (s.pc + 2#8)) hg h)

theorem State.Executes.step_mem {s t : State} {i : Instr} (hx : s.Executes i) (h : step s = .next t) :
    t.mem = s.memAfter s.mem i :=
  congrArg State.mem (step_unique h (hx.step_setMem (g := s.mem) (fun _ _ => rfl) h))

/-- A cell after an instruction: STA to it, where it exists, puts the accumulator there (42_load_store.md R121). -/
theorem State.read_memAfter (s : State) {m : Memory} (hm : m.wf) (i : Instr) (n : Nat) :
    (s.memAfter m i).read n =
      if i.mnemonic = .sta ∧ i.operand.toNat < s.params.memSize ∧ n = i.operand.toNat then s.acc else m.read n := by
  cases i with
  | sta a =>
    by_cases ha : a.toNat < s.params.memSize
    · simp [State.memAfter, Instr.mnemonic, Instr.operand, ha, Memory.read_write hm]
    · simp [State.memAfter, Instr.operand, ha]
  | and a | or a | xor a | not a | lda a | hlt a | tst a | jpz a | jmp a | add a | out a => rfl

/-- Settles O21: only the step of an instruction can change a cell, and `read_memAfter` says which instruction it was. -/
theorem memoryChangesOnlyBySta : Obligations.MemoryChangesOnlyBySta := by
  intro s t n hwf hstep hchanged
  rcases step_next_cases hstep with ⟨-, rfl⟩ | ⟨-, -, rfl⟩ | ⟨-, -, -, rfl⟩ | ⟨hr, hb, i, hd, -⟩
  · exact absurd rfl hchanged
  · exact absurd rfl hchanged
  · exact absurd rfl hchanged
  · have hx : s.Executes i := ⟨hr, hb, hd⟩
    have hread := s.read_memAfter hwf i n
    rw [← hx.step_mem hstep] at hread
    split at hread
    · next hsta =>
      obtain ⟨hm, ha, hn⟩ := hsta
      rw [← i.instr_mnemonic, hm] at hx
      exact ⟨i.operand, hx, ha, hn, hread⟩
    · exact absurd hread hchanged

/-- Settles O25: both engines go the same way, and the same instruction stores the same byte in both, in a cell that
exists. -/
theorem absentCellsAreNeverUsed : Obligations.AbsentCellsAreNeverUsed := by
  intro s t g hwf hgwf hg hstep
  change ∃ h, step (s.setMem g) = .next (t.setMem h) ∧ _
  rcases step_next_cases hstep with ⟨hh, rfl⟩ | ⟨hr, hb, rfl⟩ | ⟨hr, hb, ⟨op, a, hd⟩, rfl⟩ | ⟨hr, hb, i, hd, -⟩
  · exact ⟨g, step_of_halted hh, hg, fun _ _ => ⟨rfl, rfl⟩⟩
  · exact ⟨g, step_of_outOfBounds hr hb, hg, fun _ _ => ⟨rfl, rfl⟩⟩
  · have hx : (s.setMem g).Fetches (.undefinedOpcode op a) := ⟨hr, hb, hd⟩
    exact ⟨g, hx.step_undefinedOpcode, hg, fun _ _ => ⟨rfl, rfl⟩⟩
  · have hx : s.Executes i := ⟨hr, hb, hd⟩
    refine ⟨_, hx.step_setMem hg hstep, fun n hn => ?_, fun n hn => ?_⟩
    · rw [hx.step_mem hstep, s.read_memAfter hgwf, s.read_memAfter hwf, hg n hn]
    · have hother : ¬ (i.mnemonic = .sta ∧ i.operand.toNat < s.params.memSize ∧ n = i.operand.toNat) := by omega
      rw [hx.step_mem hstep, s.read_memAfter hgwf, s.read_memAfter hwf]
      exact ⟨if_neg hother, if_neg hother⟩

end Sys2Proof.Machine

/-! # Encoding

The opcode byte alone selects the mnemonic (30_encoding.md R62): each fact about a pair is one about `decodeOpcode`. -/

namespace Sys2Proof

/-! ## The decoder and the encoder on one pair -/

theorem decodePair_of_decodeOpcode_some {map : OpcodeMap} {op : Byte} {m : Mnemonic} (h : decodeOpcode map op = some m)
    (a : Byte) : decodePair map op a = .instr (m.instr a) := by
  rw [decodePair, h]

theorem decodePair_of_decodeOpcode_none {map : OpcodeMap} {op : Byte} (h : decodeOpcode map op = none) (a : Byte) :
    decodePair map op a = .undefinedOpcode op a := by
  rw [decodePair, h]

/-- An injective map's byte selects its own mnemonic (30_encoding.md R64). -/
theorem decodeOpcode_byte {map : OpcodeMap} (hmap : map.Injective) (m : Mnemonic) :
    decodeOpcode map (map.byte m) = some m := by
  cases h : decodeOpcode map (map.byte m) with
  | none => exact absurd (map.byte_mem m) (decodeOpcode_eq_none.1 h)
  | some n => rw [hmap.eq (byte_of_decodeOpcode h)]

/-- The undefined opcodes are the bytes outside the map's image (30_encoding.md R64, R66). -/
theorem decodePair_eq_undefinedOpcode {map : OpcodeMap} {op a : Byte} :
    decodePair map op a = .undefinedOpcode op a ↔ op ∉ map.bytes := by
  rw [← decodeOpcode_eq_none]
  cases h : decodeOpcode map op with
  | none => simp [decodePair_of_decodeOpcode_none h]
  | some m => simp [decodePair_of_decodeOpcode_some h]

/-- The layout of `Laws.EncodingLayout`, for every instruction. -/
theorem encode_eq (map : OpcodeMap) (i : Instr) : encode map i = (map.byte i.mnemonic, i.operand) := by
  cases i <;> rfl

/-- Settles O1: the encoder's opcode byte selects the instruction's mnemonic, and mnemonic and operand make the
instruction. -/
theorem decodeInvertsEncode : Obligations.DecodeInvertsEncode := by
  intro map hmap i
  rw [encode_eq, decodePair_of_decodeOpcode_some (decodeOpcode_byte hmap i.mnemonic), i.instr_mnemonic]

/-- Settles O2: a decoded instruction keeps the pair's operand and has the mnemonic of the pair's opcode byte. -/
theorem encodeInvertsDecode : Obligations.EncodeInvertsDecode := by
  intro map op a i h
  obtain ⟨hop, ha⟩ := decodePair_instr h
  rw [encode_eq, hop, ha]

/-- Settles O4, by what the opcode byte selects. -/
theorem operandTakesNoPartInSelection : Obligations.OperandTakesNoPartInSelection := by
  intro map op
  cases h : decodeOpcode map op with
  | none => exact .inl ⟨decodeOpcode_eq_none.1 h, decodePair_of_decodeOpcode_none h⟩
  | some m => exact .inr ⟨m, byte_of_decodeOpcode h, decodePair_of_decodeOpcode_some h⟩

/-! ## Counting the undefined opcodes -/

/-- The 256 byte values, in order. -/
def allBytes : List Byte := (List.range 256).map (BitVec.ofNat 8)

theorem mem_allBytes (b : Byte) : b ∈ allBytes :=
  List.mem_map.2 ⟨b.toNat, List.mem_range.2 b.isLt, by simp⟩

theorem nodup_allBytes : allBytes.Nodup := by
  refine List.Nodup.map_on (fun m hm n hn h => ?_) List.nodup_range
  rw [List.mem_range] at hm hn
  bv_omega

/-- The values that are none of a list of different bytes: those that are among them are a permutation of the list. -/
theorem length_filter_notMem {l : List Byte} (hl : l.Nodup) : (allBytes.filter (· ∉ l)).length = 256 - l.length := by
  have hperm : (allBytes.filter (· ∈ l)).Perm l :=
    (List.perm_ext_iff_of_nodup (nodup_allBytes.filter _) hl).2 fun b => by simp [mem_allBytes]
  have hsplit : allBytes.length = (allBytes.filter (· ∈ l)).length + (allBytes.filter (· ∉ l)).length := by
    simpa only [decide_not] using allBytes.length_eq_length_filter_add (· ∈ l)
  have hlength : allBytes.length = 256 := by simp [allBytes]
  rw [hperm.length_eq] at hsplit
  omega

/-- Settles O3: the undefined opcodes are the bytes that are none of the map's twelve, and twelve different bytes leave
244 of the 256 values. -/
theorem undefinedOpcodesAreTheOther244 : Obligations.UndefinedOpcodesAreTheOther244 := by
  refine fun map => ⟨fun op a => decodePair_eq_undefinedOpcode, fun hmap a => ?_⟩
  have hcount : (allBytes.filter (· ∉ map.bytes)).length = 244 := length_filter_notMem hmap
  rw [allBytes, List.filter_map, List.length_map] at hcount
  simp only [decodePair_eq_undefinedOpcode]
  exact hcount

/-! ## The default map -/

/-- Settles O5, by evaluating the decoder on each of the fixed words. -/
theorem defaultWordsDecode : Obligations.DefaultWordsDecode := by
  unfold Obligations.DefaultWordsDecode
  decide

end Sys2Proof

/-! # The step cycle

Each way a step can go, as the state it answers, and the run-to-halt loop, which takes such steps until the first halt. -/

namespace Sys2Proof.Machine

/-! ## One step -/

/-- Settles O6, by the rule for the step of a halted engine. -/
theorem stepOnHaltedChangesNothing : Obligations.StepOnHaltedChangesNothing := fun _ => step_of_halted

/-- Settles O7: the bounds check fails just when the sum, over natural numbers, reaches FW_SIZE. -/
theorem boundsCheckHalts : Obligations.BoundsCheckHalts := fun _ hr hb => step_of_outOfBounds hr (not_lt.2 hb)

/-- Settles O8, by the rule for the step of an instruction. -/
theorem stepRunsDecodedInstruction : Obligations.StepRunsDecodedInstruction := fun _ _ hx => hx.step_eq_exec

/-- Settles O9, by the rule for the step of an undefined opcode. -/
theorem undefinedOpcodeIsNop : Obligations.UndefinedOpcodeIsNop := fun _ _ _ hx => hx.step_undefinedOpcode

/-- No step stops the model: each way it can go has a rule that answers a next state (40_step_cycle.md R91). -/
theorem exists_step_next (s : State) : ∃ t : State, step s = .next t := by
  cases hr : s.halted with
  | true => exact ⟨s, step_of_halted hr⟩
  | false =>
    by_cases hb : s.pairInBounds
    · cases hd : decodePair s.params.opcodeMap (s.fw.read s.pc.toNat) (s.fw.read (s.pc + 1#8).toNat) with
      | instr i =>
        have hx : s.Executes i := ⟨hr, hb, hd⟩
        exact ⟨_, hx.step_eq_exec.trans (exec_eq i _)⟩
      | undefinedOpcode op a =>
        have hx : s.Fetches (.undefinedOpcode op a) := ⟨hr, hb, hd⟩
        exact ⟨_, hx.step_undefinedOpcode⟩
    · exact ⟨_, step_of_outOfBounds hr hb⟩

/-- Settles O10: a step always answers, and `step_next_cases` says by which of the four ways. -/
theorem everyStepAnswersNextState : Obligations.EveryStepAnswersNextState := by
  intro s
  obtain ⟨t, hstep⟩ := exists_step_next s
  refine ⟨t, hstep, ?_⟩
  rcases step_next_cases hstep with ⟨hh, ht⟩ | ⟨hr, hb, ht⟩ | ⟨hr, hb, ⟨op, a, hd⟩, ht⟩ | ⟨hr, hb, i, hd, he⟩
  · exact .inl ⟨hh, ht⟩
  · exact .inr (.inl ⟨hr, not_lt.1 hb, ht⟩)
  · exact .inr (.inr (.inr ⟨op, a, ⟨hr, hb, hd⟩, ht⟩))
  · exact .inr (.inr (.inl ⟨i, ⟨hr, hb, hd⟩, he⟩))

/-! ## The run-to-halt loop -/

theorem run_of_halted {s : State} (hh : s.halted = true) (fuel : Nat) : run fuel s = .halted 0 s := by
  cases fuel <;> exact if_pos hh

theorem run_zero_of_running {s : State} (hr : s.halted = false) : run 0 s = .outOfFuel s :=
  if_neg (by simp [hr])

/-- On a running engine the loop takes one step, counts it and goes on (40_step_cycle.md R89, R92). -/
theorem run_succ_of_running {s t : State} (hr : s.halted = false) (hstep : step s = .next t) (fuel : Nat) :
    run (fuel + 1) s = (run fuel t).countStep := by
  simp [run, hr, hstep]

/-- The first `n` states of the run from `s` are running ones. -/
def State.RunsFor (s : State) (n : Nat) : Prop :=
  ∀ m : Nat, m < n → ∃ u : State, Host.Core.run Sys2Proof.core m s = .next u ∧ u.halted = false

/-- A running engine runs for one step more than the engine that its step leaves. -/
theorem State.RunsFor.succ {s t : State} {n : Nat} (h : t.RunsFor n) (hr : s.halted = false)
    (hstep : step s = .next t) : s.RunsFor (n + 1) := by
  rintro (_ | m) hm
  · exact ⟨s, rfl, hr⟩
  · rw [run_succ hstep m]
    exact h m (Nat.lt_of_succ_lt_succ hm)

/-- Settles O49, by induction on the fuel: a halted engine ends the loop at once, and a running one takes a step and leaves
the rest to the loop with one fuel less. -/
theorem runStopsAtFirstHalt : Obligations.RunStopsAtFirstHalt := by
  intro fuel
  induction fuel with
  | zero =>
    intro s
    cases hh : s.halted with
    | true => exact .inl ⟨0, s, run_of_halted hh 0, le_rfl, hh, rfl, nofun⟩
    | false => exact .inr ⟨s, run_zero_of_running hh, hh, rfl⟩
  | succ fuel ih =>
    intro s
    cases hh : s.halted with
    | true => exact .inl ⟨0, s, run_of_halted hh _, Nat.zero_le _, hh, rfl, nofun⟩
    | false =>
      obtain ⟨t, hstep⟩ := exists_step_next s
      rw [run_succ_of_running hh hstep]
      rcases ih t with ⟨n, u, hrun, hn, hu, hsteps, hbefore⟩ | ⟨u, hrun, hu, hsteps⟩
      · rw [hrun]
        exact .inl ⟨n + 1, u, rfl, Nat.succ_le_succ hn, hu, (run_succ hstep n).trans hsteps,
          State.RunsFor.succ hbefore hh hstep⟩
      · rw [hrun]
        exact .inr ⟨u, rfl, hu, (run_succ hstep fuel).trans hsteps⟩

end Sys2Proof.Machine

/-! # The logic instructions

What the instructions that compute in the accumulator change and leave unchanged, then the effect of AND, OR, XOR and NOT
(41_logic.md). -/

namespace Sys2Proof.Machine

/-! ## The frame of the accumulator instructions -/

/-- An accumulator instruction sets the accumulator and nothing else, or it has no cell and takes the addressing fault
(60_exceptions.md R201). -/
theorem exec_accumulator_cases {i : Instr} {s t : State}
    (hi : i.mnemonic ∈ [Mnemonic.and, .or, .xor, .not, .lda, .tst, .add]) (h : exec i s = .next t) :
    (∃ v : Byte, t = s.setAcc v) ∨
    (isMemory i ∧ s.params.memSize ≤ i.operand.toNat ∧ t = s.addressFaultOf i.mnemonic i.operand) := by
  by_cases hf : isMemory i ∧ s.params.memSize ≤ i.operand.toNat
  · obtain ⟨hm, ha⟩ := hf
    rw [exec_of_outOfRange hm ha] at h
    cases h
    exact .inr ⟨hm, ha, rfl⟩
  · rw [exec_eq] at h
    cases h
    cases i with
    | not a => exact .inl ⟨_, rfl⟩
    | and a | or a | xor a | lda a | tst a | add a => exact .inl ⟨_, if_pos (not_le.1 fun ha => hf ⟨rfl, ha⟩)⟩
    | sta a | hlt a | jpz a | jmp a | out a => simp [Instr.mnemonic] at hi

/-- Settles O39: setting the accumulator and taking the addressing fault both leave the rest of the state as it was. -/
theorem accumulatorInstructionsFrame : Obligations.AccumulatorInstructionsFrame := by
  intro i s t hi h
  rcases exec_accumulator_cases hi h with ⟨v, rfl⟩ | ⟨hm, ha, rfl⟩
  · exact ⟨rfl, rfl, rfl, fun _ => rfl, fun _ => rfl, .inl ⟨rfl, rfl⟩⟩
  · exact ⟨rfl, rfl, rfl, fun _ => rfl, fun _ => rfl, .inr ⟨rfl, rfl, hm, ha⟩⟩

/-! ## The three parts of an instruction's rule -/

/-- Under the default map each mnemonic's own byte selects it, whatever the operand (30_encoding.md R63). -/
theorem decodePair_default_byte (m : Mnemonic) (a : Byte) :
    decodePair OpcodeMap.default (OpcodeMap.default.byte m) a = .instr (m.instr a) :=
  decodePair_of_decodeOpcode_some (decodeOpcode_byte (by decide) m) a

/-- A memory instruction at `ia` without a cell halts the engine and records its address, its opcode byte and its operand
(60_exceptions.md R202). -/
theorem exec_of_outOfRange_at {i : Instr} {s : State} {ia : Byte} (hpc : s.pc = ia + 2#8) (hm : isMemory i)
    (ha : s.params.memSize ≤ i.operand.toNat) :
    exec i s = .next { s with
      halted := true, fault := .addressFault ia (s.params.opcodeMap.byte i.mnemonic) i.operand } := by
  rw [exec_of_outOfRange hm ha, State.addressFaultOf_eq, hpc, BitVec.add_sub_cancel]

/-- The complement in two's complement (00_scope.md R12, R13). -/
theorem sint_not (b : Byte) : sint (~~~b) = -sint b - 1 := by
  have hb : b.toNat < 256 := b.isLt
  simp only [sint, BitVec.toInt_eq_toNat_cond, BitVec.toNat_not]
  omega

/-! ## AND, OR, XOR and NOT -/

/-- Settles O27, by AND's answer in `exec_eq` where the cell exists and the addressing fault's rule elsewhere. -/
theorem andEffect : Obligations.AndEffect := fun a s =>
  ⟨decodePair_default_byte .and a,
   fun ha => (exec_eq (.and a) s).trans (congrArg _ (if_pos ha)),
   fun _ hpc ha => exec_of_outOfRange_at (i := .and a) hpc rfl ha⟩

/-- Settles O28, by OR's answer in `exec_eq` where the cell exists and the addressing fault's rule elsewhere. -/
theorem orEffect : Obligations.OrEffect := fun a s =>
  ⟨decodePair_default_byte .or a,
   fun ha => (exec_eq (.or a) s).trans (congrArg _ (if_pos ha)),
   fun _ hpc ha => exec_of_outOfRange_at (i := .or a) hpc rfl ha⟩

/-- Settles O29, by XOR's answer in `exec_eq` where the cell exists and the addressing fault's rule elsewhere. -/
theorem xorEffect : Obligations.XorEffect := fun a s =>
  ⟨decodePair_default_byte .xor a,
   fun ha => (exec_eq (.xor a) s).trans (congrArg _ (if_pos ha)),
   fun _ hpc ha => exec_of_outOfRange_at (i := .xor a) hpc rfl ha⟩

/-- Settles O30, by NOT's answer in `exec_eq`, which no operand enters, and the complement's signed reading. -/
theorem notEffect : Obligations.NotEffect := fun a s =>
  ⟨decodePair_default_byte .not a, exec_eq (.not a) s, sint_not s.acc⟩

end Sys2Proof.Machine

/-! # Load and store

LDA copies a cell into the accumulator and STA copies the accumulator into a cell (42_load_store.md). Each has one rule for
a cell that exists; `exec_of_outOfRange` is the rule of both for one that does not. -/

namespace Sys2Proof.Machine

/-! ## Where the cell exists -/

theorem exec_lda_of_inRange {a : Byte} {s : State} (ha : a.toNat < s.params.memSize) :
    exec (.lda a) s = .next (s.setAcc (s.mem.read a.toNat)) :=
  (exec_eq (.lda a) s).trans (congrArg _ (if_pos ha))

theorem exec_sta_of_inRange {a : Byte} {s : State} (ha : a.toNat < s.params.memSize) :
    exec (.sta a) s = .next (s.setMem (s.mem.write a.toNat s.acc)) :=
  (exec_eq (.sta a) s).trans (congrArg _ (if_pos ha))

/-- The byte written is the byte read at its address (20_memory.md R43). -/
theorem Memory.read_write_same {m : Memory} (hm : m.wf) (a : Nat) (v : Byte) : (m.write a v).read a = v :=
  (Memory.read_write hm a a v).trans (if_pos rfl)

/-- A write leaves every other address as it was (20_memory.md R43). -/
theorem Memory.read_write_of_ne {m : Memory} (hm : m.wf) {a b : Nat} (h : b ≠ a) (v : Byte) :
    (m.write a v).read b = m.read b :=
  (Memory.read_write hm a b v).trans (if_neg h)

/-! ## STA -/

/-- Settles O32: below MEM_SIZE one write to a canonical memory, elsewhere the addressing fault's rule. -/
theorem staEffect : Obligations.StaEffect := fun a _ =>
  ⟨decodePair_default_byte .sta a,
   fun hwf ha => ⟨_, exec_sta_of_inRange ha, rfl, Memory.read_write_same hwf _ _,
     fun _ hn => Memory.read_write_of_ne hwf hn _⟩,
   fun _ hpc ha => exec_of_outOfRange_at (i := .sta a) hpc rfl ha⟩

/-- Settles O40: a write and the addressing fault both leave the rest of the state as it was. -/
theorem staFrame : Obligations.StaFrame := by
  intro a s t hwf h
  rcases lt_or_ge a.toNat s.params.memSize with ha | ha
  · rw [exec_sta_of_inRange ha] at h
    cases h
    exact ⟨rfl, rfl, rfl, rfl, fun _ => rfl, fun _ hn => Memory.read_write_of_ne hwf hn _,
      fun _ => ⟨rfl, rfl⟩, fun hge => absurd ha (not_lt.2 hge)⟩
  · rw [exec_of_outOfRange (i := .sta a) rfl ha] at h
    cases h
    exact ⟨rfl, rfl, rfl, rfl, fun _ => rfl, fun _ _ => rfl, fun hlt => absurd hlt (not_lt.2 ha), fun _ _ => rfl⟩

/-! ## LDA -/

/-- Settles O31: LDA's answer where the cell exists, as every cell does with MEM_SIZE = 256, and the addressing fault's rule
elsewhere. -/
theorem ldaEffect : Obligations.LdaEffect := fun a _ =>
  ⟨decodePair_default_byte .lda a, exec_lda_of_inRange,
   fun hsize => exec_lda_of_inRange (hsize ▸ a.isLt),
   fun _ hpc ha => exec_of_outOfRange_at (i := .lda a) hpc rfl ha⟩

/-! ## STA, then LDA -/

/-- Settles O42: the store leaves MEM_SIZE, so the load runs in range too, and it reads the byte the store wrote. -/
theorem staLdaRoundTrip : Obligations.StaLdaRoundTrip := by
  intro s a p hwf ha
  have hcell : (s.mem.write a.toNat s.acc).read a.toNat = s.acc := Memory.read_write_same hwf _ _
  exact ⟨_, _, exec_sta_of_inRange ha, exec_lda_of_inRange (s := { s.setMem _ with pc := p }) ha, hcell, hcell⟩

end Sys2Proof.Machine

/-! # Control

HLT, JPZ and JMP (43_control.md), the frame they share with OUT, and what they come to over several steps: a state that its
own step answers stays for ever. -/

namespace Sys2Proof.Machine

/-! ## One rule for each control instruction -/

theorem exec_hlt (a : Byte) (s : State) : exec (.hlt a) s = .next (s.halt.emit (.halt s.pc.toNat)) := exec_eq _ _

theorem exec_jpz (a : Byte) (s : State) : exec (.jpz a) s = .next (if s.acc = 0#8 then s.setPc a else s) := exec_eq _ _

theorem exec_jmp (a : Byte) (s : State) : exec (.jmp a) s = .next (s.setPc a) := exec_eq _ _

/-- JPZ moves `pc` just when the accumulator is 0x00 (43_control.md R143). -/
theorem exec_jpz_pc (a : Byte) (s : State) :
    ∃ t : State, exec (.jpz a) s = .next t ∧ t.pc = if s.acc = 0#8 then a else s.pc :=
  ⟨_, exec_jpz a s, apply_ite State.pc _ _ _⟩

/-- Settles O33, by HLT's rule, which no operand enters. -/
theorem hltEffect : Obligations.HltEffect := fun a s => ⟨decodePair_default_byte .hlt a, exec_hlt a s⟩

/-- Settles O35, by JPZ's rule on each side of its gate. -/
theorem jpzEffect : Obligations.JpzEffect := fun a s =>
  ⟨decodePair_default_byte .jpz a,
   fun hz => (exec_jpz a s).trans (congrArg _ (if_pos hz)),
   fun hnz => (exec_jpz a s).trans (congrArg _ (if_neg hnz))⟩

/-- Settles O36, by JMP's rule. -/
theorem jmpEffect : Obligations.JmpEffect := fun a s => ⟨decodePair_default_byte .jmp a, exec_jmp a s⟩

/-! ## The frame -/

/-- HLT halts and appends an event, the jumps set `pc` (a jump not taken to what it was), OUT appends an event. -/
theorem exec_control_cases {i : Instr} {s t : State} (hi : i.mnemonic ∈ [Mnemonic.hlt, .jpz, .jmp, .out])
    (h : exec i s = .next t) :
    (i.mnemonic = .hlt ∧ ∃ e : Event, t = s.halt.emit e) ∨
    ((i.mnemonic = .jpz ∨ i.mnemonic = .jmp) ∧ ∃ p : Byte, t = s.setPc p) ∨
    (i.mnemonic = .out ∧ ∃ e : Event, t = s.emit e) := by
  rw [exec_eq] at h
  cases h
  cases i with
  | hlt a => exact .inl ⟨rfl, _, rfl⟩
  | jpz a => exact .inr (.inl ⟨.inl rfl, if s.acc = 0#8 then a else s.pc, (apply_ite s.setPc _ _ _).symm⟩)
  | jmp a => exact .inr (.inl ⟨.inr rfl, a, rfl⟩)
  | out a => exact .inr (.inr ⟨rfl, _, rfl⟩)
  | and a | or a | xor a | not a | lda a | sta a | tst a | add a => simp [Instr.mnemonic] at hi

/-- Settles O41: a halt with an event, a move of `pc` and an event each leave the rest of the state as it was. -/
theorem controlAndOutputFrame : Obligations.ControlAndOutputFrame := by
  intro i s t hi h
  rcases exec_control_cases hi h with ⟨hm, e, rfl⟩ | ⟨hm, p, rfl⟩ | ⟨hm, e, rfl⟩
  · exact ⟨rfl, rfl, rfl, fun _ => rfl, fun _ => rfl, by simp [hm], fun _ => rfl, by simp [hm]⟩
  · refine ⟨rfl, rfl, rfl, fun _ => rfl, fun _ => rfl, fun _ => ⟨rfl, rfl⟩, fun hm' => ?_, fun _ => rfl⟩
    rcases hm with hm | hm <;> simp [hm] at hm'
  · exact ⟨rfl, rfl, rfl, fun _ => rfl, fun _ => rfl, by simp [hm], fun _ => rfl, fun _ => rfl⟩

/-! ## TST, then JPZ -/

theorem exec_tst_of_inRange {a : Byte} {s : State} (ha : a.toNat < s.params.memSize) :
    exec (.tst a) s = .next (s.setAcc (aluTst s.acc (s.mem.read a.toNat))) :=
  (exec_eq (.tst a) s).trans (congrArg _ (if_pos ha))

/-- The compare's result is zero on equality, and also where the accumulator was zero before (44_arith_compare.md R161). -/
theorem aluTst_eq_zero {acc cell : Byte} : aluTst acc cell = 0#8 ↔ acc = cell ∨ acc = 0#8 :=
  ite_eq_left_iff.trans or_iff_not_imp_left.symm

/-- Settles O43: JPZ's gate on the accumulator that TST leaves. -/
theorem tstThenJpz : Obligations.TstThenJpz := by
  intro s n a p hn
  obtain ⟨u, hjpz, hpc⟩ := exec_jpz_pc a { s.setAcc (aluTst s.acc (s.mem.read n.toNat)) with pc := p }
  refine ⟨_, u, exec_tst_of_inRange hn, hjpz, hpc.trans ?_⟩
  exact if_congr aluTst_eq_zero rfl rfl

/-! ## States that stay for ever -/

/-- A state that its own step answers is the end of every run from it. -/
theorem run_of_step_eq_self {s : State} (h : step s = .next s) (k : Nat) :
    Host.Core.run Sys2Proof.core k s = .next s := by
  induction k with
  | zero => rfl
  | succ k ih => exact (run_succ h k).trans ih

/-- Settles O17: HLT leaves a halted engine, whose step changes nothing. -/
theorem nothingHappensAfterHlt : Obligations.NothingHappensAfterHlt := fun _ a k hx =>
  ⟨_, hx.step_eq_exec.trans (exec_hlt a _), rfl, run_of_step_eq_self (step_of_halted rfl) k⟩

/-- Settles O26: the jump undoes the advance of `pc` by its own fetches, so the step answers the state it started from. -/
theorem selfJumpNeverEnds : Obligations.SelfJumpNeverEnds := fun s k hx =>
  run_of_step_eq_self (hx.step_eq_exec.trans (exec_jmp s.pc _)) k

end Sys2Proof.Machine

/-! # Arithmetic and compare

TST and ADD (44_arith_compare.md): what each does with a cell that exists, and the addition as the byte's own. -/

namespace Sys2Proof.Machine

/-! ## TST -/

/-- Equality makes the compare's result zero (44_arith_compare.md R160). -/
theorem aluTst_of_eq {acc cell : Byte} (h : acc = cell) : aluTst acc cell = 0#8 := if_pos h

/-- Without equality the compare leaves the accumulator (44_arith_compare.md R160). -/
theorem aluTst_of_ne {acc cell : Byte} (h : acc ≠ cell) : aluTst acc cell = acc := if_neg h

/-- Settles O34: TST's rule on each side of the compare where the cell exists, and the addressing fault's rule elsewhere. -/
theorem tstEffect : Obligations.TstEffect := by
  intro a s
  refine ⟨decodePair_default_byte .tst a, fun ha heq => ?_, fun ha hne => ?_,
    fun _ hpc ha => exec_of_outOfRange_at (i := .tst a) hpc rfl ha⟩
  · rw [exec_tst_of_inRange ha, aluTst_of_eq heq]
    rfl
  · rw [exec_tst_of_inRange ha, aluTst_of_ne hne]
    rfl

/-! ## ADD -/

theorem exec_add_of_inRange {a : Byte} {s : State} (ha : a.toNat < s.params.memSize) :
    exec (.add a) s = .next (s.setAcc (aluAdd s.acc (s.mem.read a.toNat))) :=
  (exec_eq (.add a) s).trans (congrArg _ (if_pos ha))

/-- The exact signed sum wrapped is the bytes' own sum, so one addition serves both readings (00_scope.md R12, R13). -/
theorem aluAdd_eq_add (x y : Byte) : aluAdd x y = x + y := by
  rw [aluAdd, wrap8, BitVec.ofInt_add, BitVec.ofInt_toInt, BitVec.ofInt_toInt]

/-- Settles O37: ADD's rule where the cell exists, with the sum read signed by definition and unsigned as the bytes' own,
and the addressing fault's rule elsewhere. -/
theorem addEffect : Obligations.AddEffect := fun a _ =>
  ⟨decodePair_default_byte .add a,
   fun ha => ⟨_, exec_add_of_inRange ha, rfl,
     (congrArg BitVec.toNat (aluAdd_eq_add _ _)).trans (BitVec.toNat_add _ _)⟩,
   fun _ hpc ha => exec_of_outOfRange_at (i := .add a) hpc rfl ha⟩

/-- ADD changes neither MEM_SIZE nor the cell, so a second ADD from another place adds the same cell again. -/
theorem exec_add_twice {a : Byte} {s : State} (p : Byte) (ha : a.toNat < s.params.memSize) :
    ∃ t u : State, exec (.add a) s = .next t ∧ exec (.add a) { t with pc := p } = .next u ∧
      t.acc = s.acc + s.mem.read a.toNat ∧ u.acc = s.acc + s.mem.read a.toNat + s.mem.read a.toNat := by
  refine ⟨_, _, exec_add_of_inRange ha, exec_add_of_inRange (s := { s.setAcc _ with pc := p }) ha, ?_, ?_⟩ <;>
    simp only [State.setAcc_acc, State.setAcc_mem, aluAdd_eq_add]

/-- Settles O44: two ADDs of the cell, at the values 120 and 10. -/
theorem addTwiceWraps : Obligations.AddTwiceWraps := by
  intro s a p ha hacc hcell
  obtain ⟨t, u, ht, hu, htAcc, huAcc⟩ := exec_add_twice p ha
  rw [hacc, hcell] at htAcc huAcc
  refine ⟨t, u, ht, hu, htAcc, ?_, huAcc, ?_⟩
  · rw [htAcc]; decide
  · rw [huAcc]; decide

end Sys2Proof.Machine

/-! # Output

OUT (45_output.md) has one rule, and its event's value is a signed byte. HLT and OUT are the only instructions that append
to the event stream. -/

namespace Sys2Proof.Machine

/-! ## OUT -/

theorem exec_out (a : Byte) (s : State) : exec (.out a) s = .next (s.emit (.out s.acc.toInt)) := exec_eq _ _

/-- Settles O38, by OUT's rule, which no operand enters, and the range of a signed byte. -/
theorem outEffect : Obligations.OutEffect := fun a s =>
  ⟨decodePair_default_byte .out a, exec_out a s, BitVec.le_toInt s.acc, Int.le_of_lt_add_one BitVec.toInt_lt⟩

/-! ## The event stream -/

theorem eq_out_of_mnemonic {i : Instr} (h : i.mnemonic = .out) : i = .out i.operand := by
  conv_lhs => rw [← i.instr_mnemonic, h]
  rfl

/-- Only HLT and OUT append an event (45_output.md R182). -/
theorem exec_events_of_not_emitting {i : Instr} {s t : State} (h : exec i s = .next t)
    (hi : ∀ a : Byte, i ≠ .hlt a ∧ i ≠ .out a) : t.events = s.events := by
  cases exec_effect h with
  | computes hc => exact hc.events
  | halts hm => exact absurd (eq_hlt_of_mnemonic hm) (hi _).1
  | outputs hm => exact absurd (eq_out_of_mnemonic hm) (hi _).2
  | faults => rfl

/-- Settles O23: HLT and OUT append by their own rules; a step that executes neither ends in one of the four ways, and the
three without an instruction do not touch the stream. -/
theorem eventsComeFromHltAndOut : Obligations.EventsComeFromHltAndOut := by
  intro s t hstep
  refine ⟨fun a hx => ?_, fun a hx => ?_, fun hnot => ?_⟩
  · rw [step_unique hstep (hx.step_eq_exec.trans (exec_hlt a _))]
    rfl
  · rw [step_unique hstep (hx.step_eq_exec.trans (exec_out a _))]
    rfl
  · rcases step_next_cases hstep with ⟨-, rfl⟩ | ⟨-, -, rfl⟩ | ⟨-, -, -, rfl⟩ | ⟨hr, hb, i, hd, he⟩
    · rfl
    · rfl
    · rfl
    · have hx : s.Executes i := ⟨hr, hb, hd⟩
      have hi : ∀ a : Byte, i ≠ .hlt a ∧ i ≠ .out a := fun a =>
        ⟨fun h => (hnot a).1 (h ▸ hx), fun h => (hnot a).2 (h ▸ hx)⟩
      rw [exec_events_of_not_emitting he hi, State.setPc_events]

end Sys2Proof.Machine

/-! # Exceptions

The addressing fault is the one exception (60_exceptions.md): what a memory instruction without its cell does, that one with
its cell runs on, and that no other instruction looks at MEM_SIZE. -/

namespace Sys2Proof.Machine

/-! ## The fault action -/

/-- Settles O18: the rule for the step of a memory instruction without a cell, with the operand as the byte its fetch read. -/
theorem addressFaultStopsEngine : Obligations.AddressFaultStopsEngine := by
  intro s i hx hm ha
  obtain ⟨-, hoperand⟩ := hx.bytes
  rw [hx.step_of_outOfRange hm ha, hoperand]

/-! ## Who runs the range check -/

/-- An operand is a data address for seven mnemonics (30_encoding.md R61). -/
theorem operandUse_eq_dataAddress_iff (m : Mnemonic) :
    operandUse m = .dataAddress ↔ m ∈ [Mnemonic.and, .or, .xor, .lda, .sta, .tst, .add] := by
  cases m <;> decide

theorem exists_exec_next (i : Instr) (s : State) : ∃ t : State, exec i s = .next t := ⟨_, exec_eq i s⟩

/-- A memory instruction whose cell exists computes: of the other effects two belong to HLT and OUT, and the fault needs an
operand out of range (60_exceptions.md R201). -/
theorem exec_computes_of_inRange {i : Instr} {s t : State} (hm : isMemory i)
    (ha : i.operand.toNat < s.params.memSize) (h : exec i s = .next t) : s.Computes t := by
  cases exec_effect h with
  | computes hc => exact hc
  | halts hhlt => rw [isMemory, hhlt] at hm; cases hm
  | outputs hout => rw [isMemory, hout] at hm; cases hm
  | faults _ hge => exact absurd ha (not_lt.2 hge)

theorem exec_fault_of_not_isMemory {i : Instr} {s t : State} (hm : ¬ isMemory i) (h : exec i s = .next t) :
    t.fault = s.fault := by
  by_contra hfault
  obtain ⟨hmem, -⟩ := exec_faults h hfault
  exact hm hmem

/-- The same engine with another MEM_SIZE. -/
def State.setMemSize (s : State) (n : Nat) : State := { s with params := { s.params with memSize := n } }

theorem State.setMemSize_ite (c : Prop) [Decidable c] (s t : State) (n : Nat) :
    (if c then s else t).setMemSize n = if c then s.setMemSize n else t.setMemSize n :=
  apply_ite (State.setMemSize · n) c s t

/-- Without a range check an instruction means the same for every MEM_SIZE (60_exceptions.md R201). -/
theorem exec_setMemSize {i : Instr} {s t : State} (hm : ¬ isMemory i) (n : Nat) (h : exec i s = .next t) :
    exec i (s.setMemSize n) = .next (t.setMemSize n) := by
  rw [exec_eq] at h ⊢
  cases h
  cases i with
  | not a | hlt a | jmp a | out a => rfl
  | jpz a => rw [State.setMemSize_ite]; rfl
  | and a | or a | xor a | lda a | sta a | tst a | add a => exact absurd rfl hm

/-- Settles O20: a memory instruction takes the fault without its cell and computes with it; of the others none writes the
record or looks at MEM_SIZE. -/
theorem onlyMemoryInstructionsRangeCheck : Obligations.OnlyMemoryInstructionsRangeCheck := by
  intro s
  refine ⟨fun i => operandUse_eq_dataAddress_iff i.mnemonic,
    fun i ia hpc hm ha => ⟨_, exec_of_outOfRange_at hpc hm ha, rfl, rfl⟩, fun i hm ha => ?_, fun i hm => ?_,
    fun op a hx => ⟨_, hx.step_undefinedOpcode, rfl⟩⟩
  · obtain ⟨t, ht⟩ := exists_exec_next i s
    have hc := exec_computes_of_inRange hm ha ht
    exact ⟨t, ht, hc.halted, hc.fault⟩
  · obtain ⟨t, ht⟩ := exists_exec_next i s
    exact ⟨t, ht, exec_fault_of_not_isMemory hm ht, fun n => exec_setMemSize hm n ht⟩

end Sys2Proof.Machine

/-! # Construction

Construction is the only reset (70_reset_and_hazards.md): it answers the initial state just where the parameters are legal
and the buffers fit, and refuses elsewhere. A constructed engine is clean, and the reset state is one of them. -/

namespace Sys2Proof.Machine

/-! ## What construction answers -/

theorem construct_of_legal {p : Params} {memImage fwImage : List Byte} (hp : p.Legal)
    (hfit : p.ImagesFit memImage fwImage) :
    construct p memImage fwImage = .next (State.initial p memImage fwImage) := by
  obtain ⟨hmemSize, hfwSize, hmap⟩ := hp
  obtain ⟨hmem, hfw⟩ := hfit
  rw [construct, if_neg (not_not_intro hmemSize), if_neg (not_not_intro hfwSize), if_neg (not_not_intro hmap),
    if_neg (not_not_intro hmem), if_neg (not_not_intro hfw)]

/-- Illegal parameters or buffers of other lengths fail one of the five checks (70_reset_and_hazards.md R223). -/
theorem exists_construct_refused {p : Params} {memImage fwImage : List Byte}
    (h : ¬ (p.Legal ∧ p.ImagesFit memImage fwImage)) : ∃ r : Refusal, construct p memImage fwImage = .refused r := by
  unfold construct
  split_ifs with hmemSize hfwSize hmap hmem hfw
  case neg => exact absurd ⟨⟨hmemSize, hfwSize, hmap⟩, not_not.1 hmem, not_not.1 hfw⟩ h
  all_goals exact ⟨_, rfl⟩

theorem construct_eq_next {p : Params} {memImage fwImage : List Byte} {s : State}
    (h : construct p memImage fwImage = .next s) :
    p.Legal ∧ p.ImagesFit memImage fwImage ∧ s = State.initial p memImage fwImage := by
  by_cases hok : p.Legal ∧ p.ImagesFit memImage fwImage
  · obtain ⟨hp, hfit⟩ := hok
    rw [construct_of_legal hp hfit] at h
    cases h
    exact ⟨hp, hfit, rfl⟩
  · obtain ⟨r, hr⟩ := exists_construct_refused hok
    rw [hr] at h
    cases h

/-- A program image of the right length is split into two buffers that fit (70_reset_and_hazards.md R224). -/
theorem constructFromImage_of_legal {p : Params} {image : List Byte} (hp : p.Legal)
    (hlength : image.length = p.memSize + p.fwSize) :
    constructFromImage p image = .next (State.initial p (image.take p.memSize) (image.drop p.memSize)) := by
  rw [constructFromImage, if_neg (not_not_intro hlength)]
  refine construct_of_legal hp ⟨?_, ?_⟩
  · rw [List.length_take]; omega
  · rw [List.length_drop]; omega

/-- Settles O46: the initial state where every check passes, a refusal where one fails. -/
theorem constructionRefusesOtherLengths : Obligations.ConstructionRefusesOtherLengths := by
  refine fun p memImage fwImage => ⟨fun hp hmem hfw => ⟨_, construct_of_legal hp ⟨hmem, hfw⟩⟩, fun hbad => ?_⟩
  refine exists_construct_refused fun ⟨hp, hmem, hfw⟩ => ?_
  rcases hbad with hp' | hmem' | hfw'
  · exact hp' hp
  · exact hmem' hmem
  · exact hfw' hfw

/-! ## The stores of a constructed engine -/

/-- `Memory.read_ofBytes`, with the image's byte as an optional one. -/
theorem Memory.some_read_ofBytes {image : List Byte} {i : Nat} (h : i < image.length) :
    some ((Memory.ofBytes image).read i) = image[i]? := by
  rw [Memory.read_ofBytes h, List.getElem?_eq_getElem h]

/-- Settles O45: each store reads as its own part of the image, the first MEM_SIZE bytes and the rest. -/
theorem constructionSetsState : Obligations.ConstructionSetsState := by
  intro p image hp hlength
  refine ⟨_, constructFromImage_of_legal hp hlength, rfl, rfl, rfl, rfl, rfl, rfl, fun i hi => ?_, fun j hj => ?_⟩
  · have hin : i < (image.take p.memSize).length := by rw [List.length_take]; omega
    exact (Memory.some_read_ofBytes hin).trans (List.getElem?_take_of_lt hi)
  · have hin : j < (image.drop p.memSize).length := by rw [List.length_drop]; omega
    exact (Memory.some_read_ofBytes hin).trans List.getElem?_drop

/-! ## The invariant at construction -/

/-- A new engine has no fault and no event, and its stores list nothing past their images. -/
theorem State.clean_initial {p : Params} {memImage fwImage : List Byte} (hp : p.Legal)
    (hfit : p.ImagesFit memImage fwImage) : (State.initial p memImage fwImage).Clean := by
  obtain ⟨hmem, hfw⟩ := hfit
  have hmemBelow : (Memory.ofBytes memImage).below p.memSize := hmem ▸ Memory.ofBytes_below memImage
  have hfwBelow : (Memory.ofBytes fwImage).below p.fwSize := hfw ▸ Memory.ofBytes_below fwImage
  exact ⟨hp, ⟨Memory.ofBytes_wf _, hmemBelow, Memory.ofBytes_wf _, hfwBelow⟩, rfl, nofun⟩

/-- Settles O47: a constructed engine is a clean one. -/
theorem constructedEngineHasInvariant : Obligations.ConstructedEngineHasInvariant := by
  intro p memImage fwImage s h
  obtain ⟨hp, hfit, rfl⟩ := construct_eq_next h
  exact (State.clean_initial hp hfit).inv

/-! ## Reset -/

/-- Images of zeros list nothing, so whatever their lengths the initial state is the reset state. -/
theorem State.initial_default_zeros (m n : Nat) :
    State.initial Params.default (List.replicate m 0#8) (List.replicate n 0#8) = State.reset := by
  have hzeros (k : Nat) : Memory.ofBytes (List.replicate k 0#8) = [] := Memory.ofBytesFrom_replicate 0 k
  rw [State.initial, hzeros, hzeros]
  rfl

/-- Settles O48: the default parameters are legal, and images of zeros leave both stores empty. -/
theorem resetIsDefaultConstruction : Obligations.ResetIsDefaultConstruction := by
  refine ⟨?_, rfl, rfl, rfl, rfl, rfl, rfl, rfl⟩
  have hp : Params.default.Legal := by decide
  have hfit : Params.default.ImagesFit (List.replicate 16 0#8) (List.replicate 256 0#8) :=
    ⟨List.length_replicate, List.length_replicate⟩
  rw [construct_of_legal hp hfit, State.initial_default_zeros]

/-- Settles O12: reset is a construction, and every constructed engine has the invariant. -/
theorem resetHasInvariant : Obligations.ResetHasInvariant := by
  obtain ⟨hconstruct, -⟩ := resetIsDefaultConstruction
  exact constructedEngineHasInvariant _ _ _ _ hconstruct

end Sys2Proof.Machine

/-! # The accumulator

The accumulator's writers (10_state.md R21): the seven instructions that compute in it, of which TST writes on equality
only. -/

namespace Sys2Proof.Machine

/-- STA leaves the accumulator, with its cell or without (42_load_store.md R121). -/
theorem exec_sta_acc {a : Byte} {s t : State} (h : exec (.sta a) s = .next t) : t.acc = s.acc := by
  rcases lt_or_ge a.toNat s.params.memSize with ha | ha
  · rw [exec_sta_of_inRange ha] at h
    cases h
    rfl
  · rw [exec_of_outOfRange (i := .sta a) rfl ha] at h
    cases h
    rfl

/-- TST changes the accumulator on equality only, to zero (44_arith_compare.md R160). -/
theorem exec_tst_changes_acc {a : Byte} {s t : State} (h : exec (.tst a) s = .next t) (hacc : t.acc ≠ s.acc) :
    s.acc = s.mem.read a.toNat ∧ t.acc = 0#8 := by
  rcases lt_or_ge a.toNat s.params.memSize with ha | ha
  · rw [exec_tst_of_inRange ha] at h
    cases h
    have heq : s.acc = s.mem.read a.toNat := by
      by_contra hne
      exact hacc (aluTst_of_ne hne)
    exact ⟨heq, aluTst_of_eq heq⟩
  · rw [exec_of_outOfRange (i := .tst a) rfl ha] at h
    cases h
    exact absurd rfl hacc

/-- What an instruction that changes the accumulator is (10_state.md R21). -/
theorem exec_changes_acc {i : Instr} {s t : State} (h : exec i s = .next t) (hacc : t.acc ≠ s.acc) :
    i.mnemonic ∈ [Mnemonic.and, .or, .xor, .not, .lda, .add] ∨
      ∃ a : Byte, i = .tst a ∧ s.acc = s.mem.read a.toNat ∧ t.acc = 0#8 := by
  cases i with
  | and a | or a | xor a | not a | lda a | add a => exact .inl (by simp [Instr.mnemonic])
  | tst a => exact .inr ⟨a, rfl, exec_tst_changes_acc h hacc⟩
  | sta a => exact absurd (exec_sta_acc h) hacc
  | hlt a | jpz a | jmp a | out a =>
    obtain ⟨-, hkept, -⟩ := controlAndOutputFrame _ s t (by simp [Instr.mnemonic]) h
    exact absurd hkept hacc

/-- Settles O22: a step that executes no instruction leaves the accumulator, and the fetches of one that does leave it and
the data memory. -/
theorem accumulatorWriters : Obligations.AccumulatorWriters := by
  intro s t hstep hacc
  rcases step_next_cases hstep with ⟨-, rfl⟩ | ⟨-, -, rfl⟩ | ⟨-, -, -, rfl⟩ | ⟨hr, hb, i, hd, he⟩
  · exact absurd rfl hacc
  · exact absurd rfl hacc
  · exact absurd rfl hacc
  · exact ⟨i, ⟨hr, hb, hd⟩, exec_changes_acc (s := s.setPc (s.pc + 2#8)) he hacc⟩

end Sys2Proof.Machine
